-- ==== Sys2Proof/Word.lean ====
section
/-! DEFINITION. The word types of the LZ77 token codec core: the byte of a buffer (00_scope.md R8), the 32-bit word
of a register (10_state.md R41, D22), and the two fields of a packed byte (30_encoding.md R81). -/

namespace Sys2Proof

/-- A byte, 0..255 (R8). -/
abbrev Byte := BitVec 8

/-- A 32-bit register or datapath register (R41; D22). -/
abbrev Word := BitVec 32

/-- The offset field of a token, 0..31 (R81). -/
abbrev Offset := BitVec 5

/-- The length field of a token, 0..7 (R81). -/
abbrev Length := BitVec 3

end Sys2Proof
end

