-- ==== Sys2Proof/Config.lean ====
section
/-! DEFINITION. What is fixed for one block: the token format's parameters (00_scope.md R6), the four buffers
(20_memory.md R60), the open capacities (R7) and the free values (R53, R72). An opaque constant has no value that a
proof could use: a statement holds whatever it is. -/

namespace Sys2Proof

/-- The four byte-addressed buffers, each an address space of its own (R60). -/
inductive Buf where
  /-- encoder input -/
  | ibuf
  /-- encoder output tokens -/
  | etbuf
  /-- decoder input tokens -/
  | dtbuf
  /-- decoder output -/
  | obuf
deriving DecidableEq, Repr, Inhabited

namespace Config

/-- WINDOW_SIZE: the largest backward distance (R6). -/
abbrev windowSize : Nat := 31
/-- MAX_MATCH: the longest run of one token (R6). -/
abbrev maxMatch : Nat := 7
/-- OFFSET_BITS (R6). -/
abbrev offsetBits : Nat := 5
/-- LENGTH_BITS (R6). -/
abbrev lengthBits : Nat := 3
/-- LITERAL_BITS (R6). -/
abbrev literalBits : Nat := 8
/-- TOKEN_BYTES (R6). -/
abbrev tokenBytes : Nat := 2

/-- The open choice behind IN_CAP (R7, U17; log 2). -/
opaque inCapChoice : Nat
/-- The open choice behind TIN_CAP (R7, U17; log 2). -/
opaque tinCapChoice : Nat

/-- IN_CAP, the largest encoder input length: any value from 1 to 2^32 − 1 (R7). -/
def inCap : Nat := inCapChoice % (2 ^ 32 - 1) + 1

/-- TIN_CAP, the largest token-stream length: any even value from 2 to 2^30 − 2 (R7). -/
def tinCap : Nat := 2 * (tinCapChoice % (2 ^ 29 - 1) + 1)

/-- The byte that index `i` of buffer `b` holds after the `epoch`-th reset, until it is written: a free value,
"A model draws it freely, under no law" (R53, U10, U12; log 3). -/
opaque resetByte (epoch : Nat) (b : Buf) (i : Nat) : Byte

/-- What a host read of index `i` of buffer `b` returns outside the valid range: a free value (R72, U11; log 5).
It depends on the byte the index holds (`held`; none: not written since reset), so that two reads with no
write between them agree (R66). -/
opaque staleByte (epoch : Nat) (b : Buf) (i : Nat) (held : Option Byte) : Byte

end Config
end Sys2Proof
end

