-- ==== Sys2Proof/Syntax.lean ====
section
/-! DEFINITION. The instructions: one constructor for each row of spec/opcode_table.json. The first four are tokens,
the decoder's instructions (30_encoding.md R85); the other four are the commands written to CMD (R89). -/

namespace Sys2Proof

/-- The eight rows of the opcode table. -/
inductive Instr where
  /-- LIT0: offset 0, length 0 (R169). -/
  | lit0 (lit : Byte)
  /-- LITO: offset not 0, length 0 (R170). -/
  | lito (off : Offset) (lit : Byte)
  /-- CPY: offset and length not 0 (R171). -/
  | cpy (off : Offset) (len : Length) (lit : Byte)
  /-- BAD0: offset 0, length not 0, illegal (R172). -/
  | bad0 (len : Length) (lit : Byte)
  /-- START_ENCODE: CMD value 1 (R201). -/
  | startEncode
  /-- START_DECODE: CMD value 2 (R202). -/
  | startDecode
  /-- CLEAR: CMD value 3 (R203). -/
  | clear
  /-- ILLEGAL_CMD: any other CMD value, recorded in ERR_INFO (R204). -/
  | illegalCmd (v : Word)
deriving DecidableEq, Repr

/-- Whether the instruction is a token (R80) or a command (R89). -/
def Instr.isToken : Instr → Bool
  | .lit0 _ => true
  | .lito _ _ => true
  | .cpy _ _ _ => true
  | .bad0 _ _ => true
  | .startEncode => false
  | .startDecode => false
  | .clear => false
  | .illegalCmd _ => false

end Sys2Proof
end

