-- ==== Sys2Proof/WellFormed.lean ====
section
/-! DEFINITION. The constraints the opcode table puts on operands (30_encoding.md R85, R89): the field types already
bound offset to 0..31, length to 0..7 and the literal to a byte. -/

namespace Sys2Proof

/-- A LITO or CPY token has an offset other than 0 (R85). -/
def offsetOk (off : Offset) : Bool := off != 0

/-- A CPY or BAD0 token has a length other than 0 (R85). -/
def lengthOk (len : Length) : Bool := len != 0

/-- An illegal command is a value other than 1, 2 and 3 (R89, R204). -/
def commandOk (v : Word) : Bool := v != 1 && v != 2 && v != 3

/-- An instruction's operands satisfy its row's constraint. -/
def Instr.wf : Instr → Bool
  | .lit0 _ => true
  | .lito off _ => offsetOk off
  | .cpy off len _ => offsetOk off && lengthOk len
  | .bad0 len _ => lengthOk len
  | .startEncode => true
  | .startDecode => true
  | .clear => true
  | .illegalCmd v => commandOk v

end Sys2Proof
end

