-- ==== Sys2Proof/Decode.lean ====
section
/-! DEFINITION. The Token Codec (40_codec.md), the decoder of tokens and command words (30_encoding.md) and, after it,
the encoder. -/

namespace Sys2Proof

/-! ### Token Codec: PACK and UNPACK -/

/-- The packed byte `((offset << 3) | length)[7:0]` (R81, R100). -/
def packedByte (off len : Nat) : Byte := BitVec.ofNat 8 ((off <<< 3) ||| len)

/-- PACK at full datapath width: `none` is DOMAIN (R100). -/
def pack (off len : Word) : Option Byte :=
  if Config.windowSize < off.toNat ∨ Config.maxMatch < len.toNat then none
  else some (packedByte off.toNat len.toNat)

/-- P[7:3] (R81). -/
def offsetField (p : Byte) : Offset := p.extractLsb' 3 5

/-- P[2:0] (R81). -/
def lengthField (p : Byte) : Length := p.extractLsb' 0 3

/-- UNPACK: the zero-extended fields of a packed byte; it cannot fail (R83, R101). -/
def unpack (p : Byte) : Word × Word := ((offsetField p).setWidth 32, (lengthField p).setWidth 32)

/-! ### Decoding -/

/-- One encoded instruction: a token's two bytes, P then LIT (R63), or a word written to CMD (R89). -/
inductive CodeWord where
  | token (p lit : Byte)
  | command (v : Word)
deriving DecidableEq, Repr

/-- The class of a token, by the two tests `offset = 0` and `length = 0` (R85). Total: no token is reserved (R87). -/
def decodeToken (p lit : Byte) : Instr :=
  if offsetField p = 0 then
    if lengthField p = 0 then .lit0 lit else .bad0 (lengthField p) lit
  else
    if lengthField p = 0 then .lito (offsetField p) lit else .cpy (offsetField p) (lengthField p) lit

/-- The command of a CMD value; all 32 bits take part (R89). -/
def decodeCommand (v : Word) : Instr :=
  if v = 1 then .startEncode
  else if v = 2 then .startDecode
  else if v = 3 then .clear
  else .illegalCmd v

/-- The instruction an encoded word stands for. -/
def decode : CodeWord → Instr
  | .token p lit => decodeToken p lit
  | .command v => decodeCommand v

/-- Why a byte sequence holds no token (R88: a record is two bytes). -/
inductive DecodeReject where
  /-- no byte is left -/
  | endOfStream
  /-- one byte is left, half a record -/
  | truncatedRecord
deriving DecidableEq, Repr

/-- Reads one token from the front of a token stream and returns the rest (R63, R80, R88). -/
def decodeBytes : List Byte → Except DecodeReject (Instr × List Byte)
  | [] => .error .endOfStream
  | [_] => .error .truncatedRecord
  | p :: lit :: rest => .ok (decodeToken p lit, rest)

/-! ### Encoding -/

/-- The encoded form of an instruction (R81, R85, R89). -/
def encode : Instr → CodeWord
  | .lit0 lit => .token (packedByte 0 0) lit
  | .lito off lit => .token (packedByte off.toNat 0) lit
  | .cpy off len lit => .token (packedByte off.toNat len.toNat) lit
  | .bad0 len lit => .token (packedByte 0 len.toNat) lit
  | .startEncode => .command 0x00000001
  | .startDecode => .command 0x00000002
  | .clear => .command 0x00000003
  | .illegalCmd v => .command v

/-- The two bytes of a token record (R103). -/
def recordBytes (off len : Nat) (lit : Byte) : List Byte := [packedByte off len, lit]

/-! ### The opcode table's numbering -/

/-- The packed byte of TOK16, bits [15:8] (R84). -/
def tok16Packed (w : Nat) : Byte := BitVec.ofNat 8 (w / 256)

/-- The literal of TOK16, bits [7:0] (R84). -/
def tok16Literal (w : Nat) : Byte := BitVec.ofNat 8 w

/-- The instruction the decoder reads from a word numbered as the opcode table numbers it: TOK16 for the 16-bit rows,
whose bytes lie in the buffer as P then LIT, and CMD[31:0] for the 32-bit rows (R84, R89; log 1). -/
def decodeTableWord (nbits w : Nat) : Option Instr :=
  match nbits with
  | 16 =>
    match decodeBytes [tok16Packed w, tok16Literal w] with
    | .ok (i, _) => some i
    | .error _ => none
  | 32 => some (decodeCommand (BitVec.ofNat 32 w))
  | _ => none

end Sys2Proof
end

