-- ==== Sys2Proof/Machine/State.lean ====
section
/-! DEFINITION. The state of the block (10_state.md R20), the operations its host may ask for, the reasons a step can
stop, and the state after reset (70_reset_and_hazards.md R260). -/

namespace Sys2Proof.Machine

/-- The block state STATE (R40). -/
inductive BlockState where
  | idle | busy | done | error
deriving DecidableEq, Repr

/-- STATUS.LAST_OP; the value 3 never occurs (R43). -/
inductive LastOp where
  | none | encode | decode
deriving DecidableEq, Repr

/-- STATUS.ERR_CODE; the codes 6 to 15 are never produced (R220). -/
inductive ErrCode where
  | none | domain | corruptStream | truncatedTokenStream | lengthError | illegalCommand
deriving DecidableEq, Repr

/-- The encoder sequencer's phase (R28, R134). -/
inductive EPhase where
  | search | scan | clamp | validate | emit | advance
deriving DecidableEq, Repr

/-- The decoder sequencer's phase (R34, R175). -/
inductive DPhase where
  | fetch | check | copy | lit
deriving DecidableEq, Repr

/-- The encoder datapath registers (R21 to R28). -/
structure EncRegs where
  /-- input length (R21) -/
  n : Word
  /-- cursor, the encoder's program counter (R22) -/
  pos : Word
  /-- candidate start index (R23) -/
  s : Word
  /-- compare counter (R24) -/
  k : Word
  /-- length of the best match so far (R25) -/
  bestLen : Word
  /-- start of the best match so far (R25) -/
  bestS : Word
  /-- validated length (R26) -/
  len : Word
  /-- validated offset, at full width (R26) -/
  off : Word
  /-- tokens emitted (R27) -/
  tcount : Word
  /-- sequencer phase (R28) -/
  ephase : EPhase
deriving DecidableEq, Repr

/-- The decoder datapath registers (R30 to R34). -/
structure DecRegs where
  /-- token index, the decoder's program counter (R30) -/
  tidx : Word
  /-- latched token-stream length (R31) -/
  l : Word
  /-- output size (R31) -/
  osize : Word
  /-- offset of the current token (R32) -/
  doff : Offset
  /-- length of the current token (R32) -/
  dlen : Length
  /-- literal of the current token (R32) -/
  dlit : Byte
  /-- bytes already copied for the current token (R33; log 14) -/
  dk : BitVec 3
  /-- sequencer phase (R34) -/
  dphase : DPhase
deriving DecidableEq, Repr

/-- One operation of the host on the block (R90's host notation, R260; log 6). Registers are named by their byte offset
from REG_BASE, buffer bytes by their index (log 17). -/
inductive HostOp where
  /-- a register read of `width` bytes at byte offset `off`; RD32 is width 4 -/
  | regRead (off width : Nat)
  /-- a register write of `width` bytes at byte offset `off`; WR32 is width 4 -/
  | regWrite (off width : Nat) (v : Word)
  /-- RDB -/
  | bufRead (buf : Buf) (i : Nat)
  /-- WRB -/
  | bufWrite (buf : Buf) (i : Nat) (b : Byte)
  /-- POLL: read STATUS until STATE is not BUSY (log 19) -/
  | poll
  /-- the host does nothing for one step: the running engine, if any, takes a step -/
  | wait
  /-- the reset input is applied (R260) -/
  | reset
deriving DecidableEq, Repr

/-- The contents of a buffer: the bytes written since reset, by rising index. -/
abbrev Memory := List Host.Cell

/-- The state of the block. -/
structure State where
  /-- STATE (R40) -/
  state : BlockState
  /-- STATUS.LAST_OP (R43) -/
  lastOp : LastOp
  /-- STATUS.ERR_CODE (R43, R220) -/
  errCode : ErrCode
  /-- ERR_INFO (R44) -/
  errInfo : Word
  /-- ENC_IN_LEN (R45) -/
  encInLen : Word
  /-- ENC_TOK_COUNT (R46) -/
  encTokCount : Word
  /-- DEC_TOK_LEN (R47) -/
  decTokLen : Word
  /-- DEC_OUT_LEN (R48) -/
  decOutLen : Word
  /-- IN_CAP, the constant the register CAP_IN shows (R7, R50; log 2) -/
  capIn : Nat
  /-- TIN_CAP, the constant the register CAP_TIN shows (R7, R51; log 2) -/
  capTin : Nat
  /-- encoder datapath registers (R21 to R28) -/
  enc : EncRegs
  /-- decoder datapath registers (R30 to R34) -/
  dec : DecRegs
  /-- IBUF (R60) -/
  ibuf : Memory
  /-- ETBUF (R60) -/
  etbuf : Memory
  /-- DTBUF (R60) -/
  dtbuf : Memory
  /-- OBUF (R60) -/
  obuf : Memory
  /-- the model's own: how many times reset was applied; selects the draw of R53 (log 3) -/
  resets : Nat
  /-- the model's own: host operations not yet carried out, oldest first (log 6) -/
  host : List HostOp
  /-- the model's own: the values the host's reads returned, newest first (log 7) -/
  observed : List Word
deriving DecidableEq, Repr

/-- Why a step stops with a fault. -/
inductive Fault where
  /-- An engine access at an index its buffer does not have. Raised by `memRead` and `memWrite` for an engine; no run
  reaches it (R61, R62, R74; log 9). Safe: the model stops where the spec says nothing happens. -/
  | engineOutsideBuffer (buf : Buf) (i : Nat)
deriving DecidableEq, Repr

/-- Why a step is refused. -/
inductive Refusal where
  /-- An instruction that has no meaning yet, by its mnemonic. Raised by no arm of `exec` now. Safe. -/
  | notModelled (mnemonic : String)
  /-- A host register access that is not an aligned 32-bit access; "A model refuses such an access" (R65, U13; log 10).
  Raised by `hostRegRead` and `hostRegWrite`. Safe. -/
  | registerAccessOther (off width : Nat)
  /-- A host register access at an offset the window of 16 words does not have (R41, R73; log 10). Raised by
  `hostRegRead` and `hostRegWrite`. Safe. -/
  | outsideRegisterWindow (off : Nat)
  /-- A host buffer access at an index the buffer does not have; "its effect is the platform's" (R74, U14; log 11).
  Raised by `hostBufRead` and `hostBufWrite`. Safe. -/
  | outsideBuffer (buf : Buf) (i : Nat)
deriving DecidableEq, Repr

/-- What a meaning answers. -/
abbrev Result := Host.Outcome State Fault Refusal

/-- The encoder registers after reset (R21 to R28). -/
def EncRegs.reset : EncRegs :=
  { n := 0, pos := 0, s := 0, k := 0, bestLen := 0, bestS := 0, len := 0, off := 0, tcount := 0, ephase := .search }

/-- The decoder registers after reset (R30 to R34). -/
def DecRegs.reset : DecRegs :=
  { tidx := 0, l := 0, osize := 0, doff := 0, dlen := 0, dlit := 0, dk := 0, dphase := .fetch }

/-- The block right after reset (R260, R261; the table of 10_state.md section 7). No buffer byte has been written, no
host operation is pending (log 23). -/
def State.reset : State :=
  { state := .idle, lastOp := .none, errCode := .none, errInfo := 0
    encInLen := 0, encTokCount := 0, decTokLen := 0, decOutLen := 0
    capIn := Config.inCap, capTin := Config.tinCap
    enc := EncRegs.reset, dec := DecRegs.reset
    ibuf := [], etbuf := [], dtbuf := [], obuf := []
    resets := 0, host := [], observed := [] }

end Sys2Proof.Machine
end

