-- ==== Sys2Proof/Machine/Ops.lean ====
section
/-! DEFINITION. The shared operations: buffer memories, an engine's byte accesses (00_scope.md R12), sequencing of
partial results, error entry (60_exceptions.md R226), completion, and reset (70_reset_and_hazards.md R260). -/

namespace Sys2Proof.Machine

/-- The next state of `o`, passed on to `f`; a fault or a refusal stays. -/
def andThen (o : Result) (f : State → Result) : Result :=
  match o with
  | .next s => f s
  | .fault r => .fault r
  | .refused r => .refused r

/-! ### Buffer memories -/

/-- The byte written at index `i` since reset, if any. -/
def readCell : Memory → Nat → Option Byte
  | [], _ => none
  | (a, b) :: m, i => if a = i then some b else readCell m i

/-- Memory with byte `b` at index `i`, in rising order. -/
def writeCell : Memory → Nat → Byte → Memory
  | [], i, b => [(i, b)]
  | (a, c) :: m, i, b =>
    if i < a then (i, b) :: (a, c) :: m
    else if i = a then (i, b) :: m
    else (a, c) :: writeCell m i b

/-- The canonical form: strictly rising indices. An unlisted index holds no written byte, and every entry is a written
byte, so no entry equals what an unlisted index holds (log 4). -/
def Memory.wf : Memory → Bool
  | [] => true
  | (a, _) :: m => m.all (fun c => decide (a < c.1)) && Memory.wf m

/-- The size of a buffer in bytes (R60, R7). -/
def bufSize (s : State) : Buf → Nat
  | .ibuf => s.capIn
  | .etbuf => 2 * s.capIn
  | .dtbuf => s.capTin
  | .obuf => 4 * s.capTin

/-- The contents of a buffer. -/
def bufMem (s : State) : Buf → Memory
  | .ibuf => s.ibuf
  | .etbuf => s.etbuf
  | .dtbuf => s.dtbuf
  | .obuf => s.obuf

/-- The state with other contents of one buffer. -/
def setBufMem (s : State) (b : Buf) (m : Memory) : State :=
  match b with
  | .ibuf => { s with ibuf := m }
  | .etbuf => { s with etbuf := m }
  | .dtbuf => { s with dtbuf := m }
  | .obuf => { s with obuf := m }

/-- The byte at an index of a buffer: the byte last written since reset, else the draw of R53. -/
def byteAt (s : State) (b : Buf) (i : Nat) : Byte :=
  (readCell (bufMem s b) i).getD (Config.resetByte s.resets b i)

/-- The state with one byte of a buffer written. -/
def putByte (s : State) (b : Buf) (i : Nat) (v : Byte) : State :=
  setBufMem s b (writeCell (bufMem s b) i v)

/-! ### An engine's byte accesses -/

/-- `MemRead(BUF, i, 1)` (R12); an index the buffer does not have faults (log 9). -/
def memRead (b : Buf) (i : Nat) (s : State) (f : Byte → Result) : Result :=
  if i < bufSize s b then f (byteAt s b i) else .fault (.engineOutsideBuffer b i)

/-- `MemWrite(BUF, i, 1, v)` (R12); an index the buffer does not have faults (log 9). -/
def memWrite (b : Buf) (i : Nat) (v : Byte) (s : State) : Result :=
  if i < bufSize s b then .next (putByte s b i v) else .fault (.engineOutsideBuffer b i)

/-! ### Error entry and completion -/

/-- Who raises an error: an engine, or the command dispatch before an engine starts. -/
inductive Raiser where
  | encoder | decoder | command
deriving DecidableEq, Repr

/-- The result count an engine leaves when its operation ends, by finishing or by an error (R226, R46, R48). -/
def publishCount (who : Raiser) (s : State) : State :=
  match who with
  | .encoder => { s with encTokCount := s.enc.tcount }
  | .decoder => { s with decOutLen := s.dec.osize }
  | .command => s

/-- `raise E(info)` (R226): the one error entry. STATE, ERR_CODE and ERR_INFO are set, the engine's count is published,
and since STATE leaves BUSY no engine takes a further step. LAST_OP is kept. -/
def raise (who : Raiser) (e : ErrCode) (info : Word) (s : State) : State :=
  { publishCount who s with state := .error, errCode := e, errInfo := info }

/-- The end of an operation without error: the count is published and STATE becomes DONE (R132, R168). -/
def finish (who : Raiser) (s : State) : State :=
  { publishCount who s with state := .done }

/-- Leaving the error state by CLEAR: STATE, LAST_OP, ERR_CODE and ERR_INFO to their reset values (R203, R229). -/
def clearStatus (s : State) : State :=
  { s with state := .idle, lastOp := .none, errCode := .none, errInfo := 0 }

/-- The status of a START that is accepted: BUSY, the command's LAST_OP, no error (R201, R202). -/
def acceptStatus (op : LastOp) (s : State) : State :=
  { s with state := .busy, lastOp := op, errCode := .none, errInfo := 0 }

/-- A command acts only when STATE is not BUSY; otherwise it has no effect (R200, R205). -/
def unlessBusy (s : State) (f : Result) : Result :=
  if s.state = .busy then .next s else f

/-! ### Reset -/

/-- Reset applied at any time (R260): every register to its reset value, every buffer byte unspecified again, CAP_IN and
CAP_TIN kept. The host's pending operations and what it has seen are the host's and stay (log 22). -/
def applyReset (s : State) : State :=
  { State.reset with
    capIn := s.capIn, capTin := s.capTin
    resets := s.resets + 1, host := s.host, observed := s.observed }

end Sys2Proof.Machine
end

