-- ==== Sys2Proof/Machine/Operands.lean ====
section
/-! DEFINITION. Operands: the token fields the decoder latches (42_decoder.md R162, R163), the source index of a copy
(R166), and the register names of the host's window (10_state.md R41). -/

namespace Sys2Proof.Machine

/-- The token's fields latched into doff, dlen and dlit, the copy counter cleared, and the checks next (R162, R163, R175
D_FETCH). -/
def latchToken (off : Offset) (len : Length) (lit : Byte) (s : State) : State :=
  { s with dec := { s.dec with doff := off, dlen := len, dlit := lit, dk := 0, dphase := .check } }

/-- The index in OBUF the next copied byte is read from: osize − doff (R166). -/
def copySource (s : State) : Nat := s.dec.osize.toNat - s.dec.doff.toNat

/-- The token asks for history that does not exist: doff > osize (R164). -/
def offsetTooFar (s : State) : Bool := decide (s.dec.osize.toNat < s.dec.doff.toNat)

/-- The token asks to copy at distance 0 (R165). -/
def zeroOffsetCopy (s : State) : Bool := decide (s.dec.doff = 0) && decide (s.dec.dlen ≠ 0)

/-- The registers of the window (R41). -/
inductive Reg where
  | cmd | status | errInfo | encInLen | encTokCount | decTokLen | decOutLen | param | capIn | capTin | reserved
deriving DecidableEq, Repr

/-- The register at a word-aligned byte offset of the window, 0x00 to 0x3C (R41). -/
def regAt (off : Nat) : Option Reg :=
  match off with
  | 0x00 => some .cmd
  | 0x04 => some .status
  | 0x08 => some .errInfo
  | 0x0C => some .encInLen
  | 0x10 => some .encTokCount
  | 0x14 => some .decTokLen
  | 0x18 => some .decOutLen
  | 0x1C => some .param
  | 0x20 => some .capIn
  | 0x24 => some .capTin
  | 0x28 => some .reserved
  | 0x2C => some .reserved
  | 0x30 => some .reserved
  | 0x34 => some .reserved
  | 0x38 => some .reserved
  | 0x3C => some .reserved
  | _ => none

/-- An aligned 32-bit register access (R65). -/
def wordAccess (off width : Nat) : Bool := width == 4 && off % 4 == 0

end Sys2Proof.Machine
end

