-- ==== Sys2Proof/Machine/Flags.lean ====
section
/-! DEFINITION. The status register: the block has no flags besides STATE, LAST_OP and ERR_CODE (10_state.md R35, R43),
and the two constants the host reads beside it (R49). -/

namespace Sys2Proof.Machine

/-- STATE as STATUS[1:0] (R40, R43). -/
def BlockState.code : BlockState → Nat
  | .idle => 0
  | .busy => 1
  | .done => 2
  | .error => 3

/-- LAST_OP as STATUS[3:2] (R43). -/
def LastOp.code : LastOp → Nat
  | .none => 0
  | .encode => 1
  | .decode => 2

/-- ERR_CODE as STATUS[11:8] (R43, R220). -/
def ErrCode.code : ErrCode → Nat
  | .none => 0
  | .domain => 1
  | .corruptStream => 2
  | .truncatedTokenStream => 3
  | .lengthError => 4
  | .illegalCommand => 5

/-- STATUS: STATE | LAST_OP << 2 | ERR_CODE << 8; the reserved bits read 0 (R43). -/
def statusWord (s : State) : Word :=
  BitVec.ofNat 32 (s.state.code + s.lastOp.code * 2 ^ 2 + s.errCode.code * 2 ^ 8)

/-- PARAM: WINDOW_SIZE, MAX_MATCH, OFFSET_BITS and LENGTH_BITS in one constant word (R49). -/
def paramWord : Word :=
  BitVec.ofNat 32 (Config.windowSize + Config.maxMatch * 2 ^ 8 + Config.offsetBits * 2 ^ 16 + Config.lengthBits * 2 ^ 20)

/-- A result count as the host reads it: 0 while BUSY (R46, R48, R263; log 24). -/
def shownCount (s : State) (count : Word) : Word :=
  if s.state = .busy then 0 else count

/-- What the host reads from a register (R42 to R52). -/
def regValue (s : State) : Reg → Word
  | .cmd => 0
  | .status => statusWord s
  | .errInfo => s.errInfo
  | .encInLen => s.encInLen
  | .encTokCount => shownCount s s.encTokCount
  | .decTokLen => s.decTokLen
  | .decOutLen => shownCount s s.decOutLen
  | .param => paramWord
  | .capIn => BitVec.ofNat 32 s.capIn
  | .capTin => BitVec.ofNat 32 s.capTin
  | .reserved => 0

end Sys2Proof.Machine
end

