-- ==== Sys2Proof/Machine/Encoder.lean ====
section
/-! DEFINITION. The encoder's sequencer (41_encoder.md R134): one function for each phase body, and the function that
runs the body of the current phase. Sums that are compared or used as an index are computed exactly (00_scope.md R10);
a register keeps 32 bits (log 14). -/

namespace Sys2Proof.Machine

/-- max(0, pos − 31), the start of the window (R122). -/
def windowStart (pos : Word) : Word :=
  BitVec.ofNat 32 (pos.toNat - Config.windowSize)

/-- E_SEARCH: search initialisation (R125) and the start of the scan (R122). -/
def encSearch (s : State) : State :=
  { s with enc := { s.enc with
      bestLen := 0, bestS := s.enc.pos, s := windowStart s.enc.pos, k := 0
      ephase := if (windowStart s.enc.pos).toNat < s.enc.pos.toNat then .scan else .clamp } }

/-- E_SCAN, an equal byte: count it (R123). -/
def encCountMatch (s : State) : State :=
  { s with enc := { s.enc with k := s.enc.k + 1 } }

/-- E_SCAN, the end of a candidate: it replaces the best on a strictly greater length, and the next candidate follows,
or the clamp after the last (R124). -/
def encNextCandidate (s : State) : State :=
  { s with enc := { s.enc with
      bestLen := if s.enc.bestLen.toNat < s.enc.k.toNat then s.enc.k else s.enc.bestLen
      bestS := if s.enc.bestLen.toNat < s.enc.k.toNat then s.enc.s else s.enc.bestS
      s := s.enc.s + 1, k := 0
      ephase := if s.enc.s + 1 = s.enc.pos then .clamp else .scan } }

/-- E_SCAN: one byte compare of the candidate (R123); the bounds are checked before the two reads. -/
def encScan (s : State) : Result :=
  if s.enc.k.toNat < Config.maxMatch ∧ s.enc.pos.toNat + s.enc.k.toNat < s.enc.n.toNat then
    memRead .ibuf (s.enc.s.toNat + s.enc.k.toNat) s fun a =>
      memRead .ibuf (s.enc.pos.toNat + s.enc.k.toNat) s fun b =>
        .next (if a = b then encCountMatch s else encNextCandidate s)
  else .next (encNextCandidate s)

/-- The clamped length: one literal byte must remain (R126). -/
def clampedLen (s : State) : Word :=
  if s.enc.n.toNat ≤ s.enc.pos.toNat + s.enc.bestLen.toNat then s.enc.n - s.enc.pos - 1 else s.enc.bestLen

/-- The token's offset: 0 for a token that copies nothing (R127). -/
def tokenOffset (s : State) : Word :=
  if clampedLen s = 0 then 0 else s.enc.pos - s.enc.bestS

/-- E_CLAMP: the boundary clamp and the offset rule (R126, R127). -/
def encClamp (s : State) : State :=
  { s with enc := { s.enc with len := clampedLen s, off := tokenOffset s, ephase := .validate } }

/-- E_VALIDATE: the range check PACK makes (R128, R100); out of range is DOMAIN, an architected error (R221; log 20). -/
def encValidate (s : State) : State :=
  match pack s.enc.off s.enc.len with
  | none => raise .encoder .domain s.enc.pos s
  | some _ => { s with enc := { s.enc with ephase := .emit } }

/-- E_EMIT: the token record is appended to ETBUF, the packed byte then the literal (R129, R130). -/
def encEmit (s : State) : Result :=
  andThen (memWrite .etbuf (2 * s.enc.tcount.toNat) (packedByte s.enc.off.toNat s.enc.len.toNat) s) fun t =>
    memRead .ibuf (s.enc.pos.toNat + s.enc.len.toNat) t fun lit =>
      andThen (memWrite .etbuf (2 * s.enc.tcount.toNat + 1) lit t) fun u =>
        .next { u with enc := { u.enc with tcount := u.enc.tcount + 1, ephase := .advance } }

/-- E_ADVANCE: the cursor moves past the copied bytes and the literal; the operation ends at the end of the input
(R131, R132). -/
def encAdvance (s : State) : State :=
  let t : State := { s with enc := { s.enc with pos := s.enc.pos + s.enc.len + 1 } }
  if t.enc.pos.toNat < t.enc.n.toNat then { t with enc := { t.enc with ephase := .search } }
  else finish .encoder t

/-- One step of the encoder: the body of the current phase (R134). -/
def encStep (s : State) : Result :=
  match s.enc.ephase with
  | .search => .next (encSearch s)
  | .scan => encScan s
  | .clamp => .next (encClamp s)
  | .validate => .next (encValidate s)
  | .emit => encEmit s
  | .advance => .next (encAdvance s)

/-- What an accepted START_ENCODE does to the encoder: n is latched, the cursor and the counts are cleared, and the
operation ends at once on an empty input (R121, R134, R266). -/
def startEncoder (s : State) : State :=
  let t : State := { s with
    encTokCount := 0
    enc := { s.enc with n := s.encInLen, pos := 0, tcount := 0 } }
  if s.encInLen = 0 then finish .encoder t
  else { t with enc := { t.enc with ephase := .search } }

end Sys2Proof.Machine
end

