-- ==== Sys2Proof/Machine/Decoder.lean ====
section
/-! DEFINITION. The decoder's sequencer (42_decoder.md R175): one function for each phase body. The meanings of the
tokens are made of the same bodies. -/

namespace Sys2Proof.Machine

/-- D_FETCH: the two bytes of token tidx (R162) and its unpacking (R163). -/
def decFetch (s : State) : Result :=
  memRead .dtbuf (2 * s.dec.tidx.toNat) s fun p =>
    memRead .dtbuf (2 * s.dec.tidx.toNat + 1) s fun lit =>
      .next (latchToken (offsetField p) (lengthField p) lit s)

/-- The sequencer at phase `p`. -/
def setDPhase (p : DPhase) (s : State) : State := { s with dec := { s.dec with dphase := p } }

/-- CORRUPT_STREAM at the current token (R164, R165, R222). -/
def raiseCorrupt (s : State) : State := raise .decoder .corruptStream s.dec.tidx s

/-- D_CHECK, then `f`: the back-reference check and the zero-offset check come before any write of the token; a failed
check raises CORRUPT_STREAM and nothing follows (R164, R165, R173). -/
def checkThen (s : State) (f : State → Result) : Result :=
  if offsetTooFar s then .next (raiseCorrupt s)
  else if zeroOffsetCopy s then .next (raiseCorrupt s)
  else f (setDPhase (if s.dec.dlen = 0 then .lit else .copy) s)

/-- D_CHECK (R164, R165). -/
def decCheck (s : State) : Result := checkThen s .next

/-- Appends one byte to the output: `MemWrite(OBUF, osize, 1, b)`, then osize grows by one (R166, R167). -/
def appendByte (b : Byte) (s : State) : Result :=
  andThen (memWrite .obuf s.dec.osize.toNat b s) fun t =>
    .next { t with dec := { t.dec with osize := t.dec.osize + 1 } }

/-- After a copied byte: the counter grows, and the literal follows the last byte (R166, R175 D_COPY). -/
def countCopied (s : State) : State :=
  { s with dec := { s.dec with
      dk := s.dec.dk + 1
      dphase := if s.dec.dk + 1 = s.dec.dlen then .lit else .copy } }

/-- D_COPY: one byte, read at the current osize − doff after the write before it (R166, R264). -/
def decCopy (s : State) : Result :=
  memRead .obuf (copySource s) s fun b =>
    andThen (appendByte b s) fun t => .next (countCopied t)

/-- After the literal: the next token, or the end of the operation when tidx = L / 2 (R168). -/
def nextToken (s : State) : State :=
  let t : State := { s with dec := { s.dec with tidx := s.dec.tidx + 1 } }
  if t.dec.tidx.toNat < t.dec.l.toNat / 2 then setDPhase .fetch t
  else finish .decoder t

/-- D_LIT: the literal is appended, then the advance (R167, R168). -/
def decLit (s : State) : Result :=
  andThen (appendByte s.dec.dlit s) fun t => .next (nextToken t)

/-- One step of the reference micro-step sequencer: the body of the current phase (R175). -/
def decMicroStep (s : State) : Result :=
  match s.dec.dphase with
  | .fetch => decFetch s
  | .check => decCheck s
  | .copy => decCopy s
  | .lit => decLit s

/-- `k` steps of the reference sequencer (R175). -/
def decMicroSteps : Nat → State → Result
  | 0, s => .next s
  | k + 1, s => andThen (decMicroStep s) (decMicroSteps k)

/-- The copy replay: `k` bytes, one at a time, in forward order (R166). -/
def copyRun : Nat → State → Result
  | 0, s => .next s
  | k + 1, s => andThen (decCopy s) (copyRun k)

/-- What an accepted START_DECODE does to the decoder: L is latched, the counts are cleared; an odd L is
TRUNCATED_TOKEN_STREAM before any fetch, and an empty stream ends at once (R160, R161, R175, R223, R266). -/
def startDecoder (s : State) : State :=
  let t : State := { s with
    decOutLen := 0
    dec := { s.dec with l := s.decTokLen, tidx := 0, osize := 0 } }
  if s.decTokLen.toNat % 2 = 1 then raise .decoder .truncatedTokenStream s.decTokLen t
  else if s.decTokLen = 0 then finish .decoder t
  else setDPhase .fetch t

end Sys2Proof.Machine
end

