-- ==== Sys2Proof/Machine/Tokens.lean ====
section
/-! DEFINITION. The meanings of the four token classes (42_decoder.md R169 to R172), each a whole token: the fields are
latched, then the class's own checks and appends follow. -/

namespace Sys2Proof.Machine

/-- LIT0: append the literal; no check can fail (R169). -/
def execLit0 (lit : Byte) (s : State) : Result :=
  decLit (setDPhase .lit (latchToken 0 0 lit s))

/-- LITO: the back-reference check, then the literal; nothing is copied (R170). -/
def execLito (off : Offset) (lit : Byte) (s : State) : Result :=
  checkThen (latchToken off 0 lit s) decLit

/-- CPY: the back-reference check, the forward copy of `len` bytes, then the literal (R171). -/
def execCpy (off : Offset) (len : Length) (lit : Byte) (s : State) : Result :=
  checkThen (latchToken off len lit s) fun t => andThen (copyRun len.toNat t) decLit

/-- BAD0: CORRUPT_STREAM at its own index, nothing written (R172). -/
def execBad0 (len : Length) (lit : Byte) (s : State) : Result :=
  .next (raiseCorrupt (latchToken 0 len lit s))

end Sys2Proof.Machine
end

