-- ==== Sys2Proof/Machine/Commands.lean ====
section
/-! DEFINITION. The meanings of the four commands (45_control.md R200 to R205). -/

namespace Sys2Proof.Machine

/-- LENGTH_ERROR of a START_ENCODE: no engine starts, the count is 0 (R224). -/
def encLengthError (s : State) : State :=
  raise .command .lengthError s.encInLen { s with lastOp := .encode, encTokCount := 0 }

/-- LENGTH_ERROR of a START_DECODE: no engine starts, the count is 0 (R224). -/
def decLengthError (s : State) : State :=
  raise .command .lengthError s.decTokLen { s with lastOp := .decode, decOutLen := 0 }

/-- START_ENCODE (R201): the capacity check, then the encoder's sequencer starts. -/
def execStartEncode (s : State) : Result :=
  unlessBusy s (.next
    (if s.capIn < s.encInLen.toNat then encLengthError s
     else startEncoder (acceptStatus .encode s)))

/-- START_DECODE (R202): the capacity check, then the decoder's sequencer starts. -/
def execStartDecode (s : State) : Result :=
  unlessBusy s (.next
    (if s.capTin < s.decTokLen.toNat then decLengthError s
     else startDecoder (acceptStatus .decode s)))

/-- CLEAR (R203). -/
def execClear (s : State) : Result := unlessBusy s (.next (clearStatus s))

/-- An illegal command: ILLEGAL_COMMAND with the written value, LAST_OP 0 (R204, R225). -/
def execIllegalCmd (v : Word) (s : State) : Result :=
  unlessBusy s (.next (raise .command .illegalCommand v { s with lastOp := .none }))

end Sys2Proof.Machine
end

