-- ==== Sys2Proof/Machine/Dispatch.lean ====
section
/-! DEFINITION. One arm for each instruction of the opcode table. -/

namespace Sys2Proof.Machine

def exec (i : Instr) (s : State) : Host.Outcome State Fault Refusal :=
  match i with
  | .lit0 lit => Sys2Proof.Machine.execLit0 lit s
  | .lito off lit => Sys2Proof.Machine.execLito off lit s
  | .cpy off len lit => Sys2Proof.Machine.execCpy off len lit s
  | .bad0 len lit => Sys2Proof.Machine.execBad0 len lit s
  | .startEncode => Sys2Proof.Machine.execStartEncode s
  | .startDecode => Sys2Proof.Machine.execStartDecode s
  | .clear => Sys2Proof.Machine.execClear s
  | .illegalCmd v => Sys2Proof.Machine.execIllegalCmd v s

end Sys2Proof.Machine
end

