-- ==== Sys2Proof/Machine/HostBus.lean ====
section
/-! DEFINITION. The host's accesses to the block: the register window (10_state.md R41 to R52, 45_control.md R200, R206
to R208) and the buffers (20_memory.md R60, R68, R72). -/

namespace Sys2Proof.Machine

/-- The value a host read returns is the host's (log 7). -/
def observe (v : Word) (s : State) : State := { s with observed := v :: s.observed }

/-- A register access reaches the register at its offset only when it is an aligned 32-bit access (R65, U13; log 10). -/
def atRegister (off width : Nat) (f : Reg → Result) : Result :=
  if wordAccess off width then
    match regAt off with
    | some r => f r
    | none => .refused (.outsideRegisterWindow off)
  else .refused (.registerAccessOther off width)

/-- RD32: the register's current value; no register changes (R206). -/
def hostRegRead (off width : Nat) (s : State) : Result :=
  atRegister off width fun r => .next (observe (regValue s r) s)

/-- A write to a length register is kept unless the block is BUSY (R208). -/
def writeEncInLen (v : Word) (s : State) : State := if s.state = .busy then s else { s with encInLen := v }

/-- A write to a length register is kept unless the block is BUSY (R208). -/
def writeDecTokLen (v : Word) (s : State) : State := if s.state = .busy then s else { s with decTokLen := v }

/-- What a 32-bit write does to a register: a write to CMD runs the command it encodes (R200, R89), the length registers
keep the value (R208), and the read-only registers and reserved offsets ignore it (R207, R52). -/
def writeReg (v : Word) (s : State) : Reg → Result
  | .cmd => exec (decodeCommand v) s
  | .status => .next s
  | .errInfo => .next s
  | .encInLen => .next (writeEncInLen v s)
  | .encTokCount => .next s
  | .decTokLen => .next (writeDecTokLen v s)
  | .decOutLen => .next s
  | .param => .next s
  | .capIn => .next s
  | .capTin => .next s
  | .reserved => .next s

/-- WR32 (R200, R207, R208). -/
def hostRegWrite (off width : Nat) (v : Word) (s : State) : Result :=
  atRegister off width (writeReg v s)

/-- How many bytes of an output buffer are valid for the host; the host's own input buffers are wholly valid (R72). -/
def hostValid (s : State) (b : Buf) (i : Nat) : Bool :=
  match b with
  | .ibuf => true
  | .etbuf => decide (i < 2 * s.encTokCount.toNat)
  | .dtbuf => true
  | .obuf => decide (i < s.decOutLen.toNat)

/-- The byte a host read of a buffer returns when the block is not BUSY: the byte there within the valid range, any value
outside it (R68, R72; log 5). -/
def hostByte (s : State) (b : Buf) (i : Nat) : Byte :=
  if hostValid s b i then byteAt s b i
  else Config.staleByte s.resets b i (readCell (bufMem s b) i)

/-- A host access beyond a buffer's size is outside the block's map and refused (R74, U14; log 11). -/
def insideBuffer (b : Buf) (i : Nat) (s : State) (r : Result) : Result :=
  if i < bufSize s b then r else .refused (.outsideBuffer b i)

/-- RDB: 0x00 while BUSY (R68); no state of the block changes (R66). -/
def hostBufRead (b : Buf) (i : Nat) (s : State) : Result :=
  insideBuffer b i s (.next (observe (if s.state = .busy then 0 else (hostByte s b i).setWidth 32) s))

/-- The buffers a host write reaches (R60). -/
def hostWritable : Buf → Bool
  | .ibuf => true
  | .etbuf => false
  | .dtbuf => true
  | .obuf => false

/-- WRB: dropped while BUSY and for the output buffers (R68). -/
def hostBufWrite (b : Buf) (i : Nat) (v : Byte) (s : State) : Result :=
  insideBuffer b i s (.next (if s.state ≠ .busy ∧ hostWritable b = true then putByte s b i v else s))

end Sys2Proof.Machine
end

