-- ==== Sys2Proof/Machine/Sequencer.lean ====
section
/-! DEFINITION. Which agent moves next and what it does (20_memory.md R67, R69; 00_scope.md R13; log 6), fetching a token,
and how a code word is placed for the next step (log 16). -/

namespace Sys2Proof.Machine

/-- The bytes of the token at tidx, decoded and executed whole (R162, R71; log 8). -/
def runToken (s : State) : Result :=
  memRead .dtbuf (2 * s.dec.tidx.toNat) s fun p =>
    memRead .dtbuf (2 * s.dec.tidx.toNat + 1) s fun lit =>
      exec (decodeToken p lit) s

/-- One step of the decoder: a whole token at D_FETCH (R13), else the phase body the token stands at (R175; log 8). -/
def decStep (s : State) : Result :=
  match s.dec.dphase with
  | .fetch => runToken s
  | .check => decMicroStep s
  | .copy => decMicroStep s
  | .lit => decMicroStep s

/-- The step of the engine that LAST_OP names while BUSY; no engine runs in any other state (R40, R226, R261; log 13,
log 21). -/
def engineStep (s : State) : Result :=
  match s.state with
  | .busy =>
    match s.lastOp with
    | .encode => encStep s
    | .decode => decStep s
    | .none => .next s
  | .idle => .next s
  | .done => .next s
  | .error => .next s

/-- The host has nothing to do: the engine moves. Otherwise the host's oldest operation is carried out; `wait` and a
`poll` that reads BUSY let the engine move instead (R69, R90, R268; log 6, log 19). -/
def advance (s : State) : Result :=
  match s.host with
  | [] => engineStep s
  | op :: rest =>
    let t : State := { s with host := rest }
    match op with
    | .wait => engineStep t
    | .poll => if s.state = .busy then engineStep s else .next (observe (statusWord t) t)
    | .regRead off width => hostRegRead off width t
    | .regWrite off width v => hostRegWrite off width v t
    | .bufRead b i => hostBufRead b i t
    | .bufWrite b i v => hostBufWrite b i v t
    | .reset => .next (applyReset t)

/-- The state whose next step carries out the CMD write of `v`. -/
def placeCommand (v : Word) (s : State) : State :=
  { s with host := .regWrite 0x00 4 v :: s.host }

/-- The state whose next step runs the token (p, lit): a running decode at D_FETCH whose token tidx it is. -/
def placeToken (p lit : Byte) (s : State) : State :=
  let t := putByte (putByte s .dtbuf (2 * s.dec.tidx.toNat) p) .dtbuf (2 * s.dec.tidx.toNat + 1) lit
  let len : Word := BitVec.ofNat 32 (max s.dec.l.toNat (2 * s.dec.tidx.toNat + 2))
  { acceptStatus .decode t with
    decTokLen := len
    dec := { t.dec with l := len, dphase := .fetch }
    host := .wait :: s.host }

end Sys2Proof.Machine
end

