-- ==== Sys2Proof/Machine/Step.lean ====
section
/-! DEFINITION. The step function, and the placing of one code word for the next step. -/

namespace Sys2Proof.Machine

/-- One step of the block and its host. -/
def step (s : State) : Host.Outcome State Fault Refusal := advance s

/-- `s` with one instruction where `step` fetches its next: a 16-bit word is TOK16, placed as the token at tidx of a
running decode; any other is a CMD value, placed as the host's next write (log 1, log 16). -/
def State.withFetchWord (s : State) (nbits w : Nat) : State :=
  match nbits with
  | 16 => placeToken (tok16Packed w) (tok16Literal w) s
  | _ => placeCommand (BitVec.ofNat 32 w) s

end Sys2Proof.Machine
end

