-- ==== Sys2Proof/Machine/Functional.lean ====
section
/-! DEFINITION. The normative functions of the two operations: ENCODE_F (41_encoder.md R133) and DECODE_F (42_decoder.md
R174), pure maps on byte sequences (00_scope.md R13), and the records between them (40_codec.md R103). -/

namespace Sys2Proof.Machine

/-- A token as ENCODE_F emits it (R133). -/
structure Token where
  off : Nat
  len : Nat
  lit : Byte
deriving DecidableEq, Repr

/-- The count of ML(s, pos) from `k` on, at most `fuel` more bytes (R123). -/
def matchFrom (inp : List Byte) (s pos : Nat) : Nat → Nat → Nat
  | 0, k => k
  | fuel + 1, k =>
    if pos + k < inp.length ∧ inp.getD (s + k) 0 = inp.getD (pos + k) 0 then matchFrom inp s pos fuel (k + 1) else k

/-- ML(s, pos), capped at MAX_MATCH and at the end of the input (R123). -/
def matchLength (inp : List Byte) (s pos : Nat) : Nat := matchFrom inp s pos Config.maxMatch 0

/-- The scan of `count` candidates from `s` on, with the best length and start so far (R124). -/
def scanFrom (inp : List Byte) (pos : Nat) : Nat → Nat → Nat × Nat → Nat × Nat
  | 0, _, best => best
  | count + 1, s, best =>
    scanFrom inp pos count (s + 1)
      (if best.1 < matchLength inp s pos then (matchLength inp s pos, s) else best)

/-- best_len and best_s of the search at cursor pos (R122, R124, R125). -/
def bestMatch (inp : List Byte) (pos : Nat) : Nat × Nat :=
  scanFrom inp pos (pos - (pos - Config.windowSize)) (pos - Config.windowSize) (0, pos)

/-- The length after the boundary clamp (R126). -/
def clampLength (n pos bestLen : Nat) : Nat := if n ≤ pos + bestLen then n - pos - 1 else bestLen

/-- The token of cursor pos (R126, R127, R129). -/
def tokenAt (inp : List Byte) (pos : Nat) : Token :=
  let best := bestMatch inp pos
  let len := clampLength inp.length pos best.1
  { off := if len = 0 then 0 else pos - best.2, len := len, lit := inp.getD (pos + len) 0 }

/-- What ENCODE_F returns: tokens, or DOMAIN at a cursor with the tokens before it (R133). -/
inductive EncResult where
  | ok (tokens : List Token)
  | domain (pos : Nat) (tokens : List Token)
deriving DecidableEq, Repr

/-- One more token in front. -/
def EncResult.cons (t : Token) : EncResult → EncResult
  | .ok ts => .ok (t :: ts)
  | .domain pos ts => .domain pos (t :: ts)

/-- The loop of ENCODE_F from cursor pos, at most `fuel` tokens (R133). -/
def encodeFrom (inp : List Byte) : Nat → Nat → EncResult
  | 0, _ => .ok []
  | fuel + 1, pos =>
    if pos < inp.length then
      let t := tokenAt inp pos
      if Config.windowSize < t.off ∨ Config.maxMatch < t.len then .domain pos []
      else EncResult.cons t (encodeFrom inp fuel (pos + t.len + 1))
    else .ok []

/-- ENCODE_F; every token covers a byte, so the input's length bounds the loop (R133, R131). -/
def encodeF (inp : List Byte) : EncResult := encodeFrom inp inp.length 0

/-- The token records in a buffer, in emission order (R63, R103). -/
def serialise : List Token → List Byte
  | [] => []
  | t :: ts => recordBytes t.off t.len t.lit ++ serialise ts

/-- What DECODE_F returns: the output, or an error with its record and the output before it (R174). -/
inductive DecResult where
  | ok (out : List Byte)
  | truncated (len : Nat)
  | corrupt (t : Nat) (out : List Byte)
deriving DecidableEq, Repr

/-- `repeat len times: O <- O ++ [O[|O| − off]]` (R166, R174). -/
def replay (off : Nat) : Nat → List Byte → List Byte
  | 0, out => out
  | k + 1, out => replay off k (out ++ [out.getD (out.length - off) 0])

/-- The loop of DECODE_F over the token bytes from token t on, with the output so far (R174). -/
def decodeFrom : List Byte → Nat → List Byte → DecResult
  | p :: lit :: rest, t, out =>
    if out.length < (offsetField p).toNat then .corrupt t out
    else if (offsetField p).toNat = 0 ∧ 0 < (lengthField p).toNat then .corrupt t out
    else decodeFrom rest (t + 1) (replay (offsetField p).toNat (lengthField p).toNat out ++ [lit])
  | _, _, out => .ok out

/-- DECODE_F (R174). -/
def decodeF (tb : List Byte) : DecResult :=
  if tb.length % 2 = 1 then .truncated tb.length else decodeFrom tb 0 []

end Sys2Proof.Machine
end

