-- ==== Sys2Proof/Safety.lean ====
section
/-! DEFINITION. The terms the statements use: what a run may rely on (the invariant `Inv`), the bytes of a buffer as a
sequence (00_scope.md R11), and the frames of the tokens and of the engines. -/

namespace Sys2Proof.Machine

/-- The first `n` bytes of a buffer, `B[0..n)` (R11). -/
def bufBytes (s : State) (b : Buf) (n : Nat) : List Byte := (List.range n).map (byteAt s b)

/-! ### The invariant -/

/-- The capacities are ones R7 allows. -/
structure CapsLegal (s : State) : Prop where
  inLow : 1 ≤ s.capIn
  inHigh : s.capIn ≤ 2 ^ 32 - 1
  tinLow : 2 ≤ s.capTin
  tinHigh : s.capTin ≤ 2 ^ 30 - 2
  tinEven : s.capTin % 2 = 0

/-- STATE, LAST_OP, ERR_CODE and ERR_INFO agree (R40, R43, R44, R220, R224, R225); DOMAIN does not occur (R141). -/
structure StatusLegal (s : State) : Prop where
  noError : s.state ≠ .error → s.errCode = .none ∧ s.errInfo = 0
  someError : s.state = .error → s.errCode ≠ .none
  notDomain : s.errCode ≠ .domain
  idleOp : s.state = .idle → s.lastOp = .none
  busyOp : s.state = .busy → s.lastOp ≠ .none
  doneOp : s.state = .done → s.lastOp ≠ .none
  streamOp : s.errCode = .corruptStream ∨ s.errCode = .truncatedTokenStream → s.lastOp = .decode
  lengthOp : s.errCode = .lengthError → s.lastOp ≠ .none
  illegalOp : s.errCode = .illegalCommand → s.lastOp = .none

/-- Every buffer is in canonical form and holds no byte beyond its size (R60; log 4). -/
def BuffersLegal (s : State) : Prop :=
  ∀ b : Buf, Memory.wf (bufMem s b) = true ∧ ∀ c ∈ bufMem s b, c.1 < bufSize s b

/-- The result counts fit their buffers (R138, R178). -/
structure CountsLegal (s : State) : Prop where
  tokens : s.encTokCount.toNat ≤ s.capIn
  output : s.decOutLen.toNat ≤ 4 * s.capTin

/-- The best match so far is one of the window and of the input (R122 to R125). -/
structure BestLegal (e : EncRegs) : Prop where
  cap : e.bestLen.toNat ≤ 7
  inside : e.pos.toNat + e.bestLen.toNat ≤ e.n.toNat
  before : e.bestS.toNat ≤ e.pos.toNat
  near : e.pos.toNat ≤ e.bestS.toNat + 31
  found : e.bestLen ≠ 0 → e.bestS.toNat < e.pos.toNat

/-- The validated token is one the encoder may emit (R137, R86). -/
structure TokenLegal (e : EncRegs) : Prop where
  cap : e.len.toNat ≤ 7
  window : e.off.toNat ≤ 31
  literal : e.pos.toNat + e.len.toNat < e.n.toNat
  canonical : e.off = 0 ↔ e.len = 0
  history : e.off.toNat ≤ e.pos.toNat

/-- What holds of the encoder registers in each phase. -/
def EncPhaseLegal (e : EncRegs) : Prop :=
  match e.ephase with
  | .search => e.tcount.toNat ≤ e.pos.toNat
  | .scan => e.tcount.toNat ≤ e.pos.toNat ∧ e.s.toNat < e.pos.toNat ∧ e.pos.toNat ≤ e.s.toNat + 31 ∧
      e.k.toNat ≤ 7 ∧ e.pos.toNat + e.k.toNat ≤ e.n.toNat ∧ BestLegal e
  | .clamp => e.tcount.toNat ≤ e.pos.toNat ∧ BestLegal e
  | .validate => e.tcount.toNat ≤ e.pos.toNat ∧ TokenLegal e
  | .emit => e.tcount.toNat ≤ e.pos.toNat ∧ TokenLegal e
  | .advance => e.tcount.toNat ≤ e.pos.toNat + 1 ∧ TokenLegal e

/-- A running encode (R21, R22, R46, R266). -/
structure EncRunning (s : State) : Prop where
  latched : s.enc.n = s.encInLen
  fits : s.enc.n.toNat ≤ s.capIn
  cursor : s.enc.pos.toNat < s.enc.n.toNat
  hidden : s.encTokCount = 0
  phase : EncPhaseLegal s.enc

/-- What holds of the decoder registers in each phase; a token writes at most eight bytes (R178). -/
def DecPhaseLegal (d : DecRegs) : Prop :=
  match d.dphase with
  | .fetch => d.osize.toNat ≤ 8 * d.tidx.toNat
  | .check => d.osize.toNat ≤ 8 * d.tidx.toNat ∧ d.dk = 0
  | .copy => 1 ≤ d.doff.toNat ∧ d.doff.toNat ≤ d.osize.toNat ∧ d.dk.toNat < d.dlen.toNat ∧
      d.osize.toNat ≤ 8 * d.tidx.toNat + d.dk.toNat
  | .lit => d.osize.toNat ≤ 8 * d.tidx.toNat + 7

/-- A running decode (R30, R31, R48, R266). -/
structure DecRunning (s : State) : Prop where
  latched : s.dec.l = s.decTokLen
  even : s.dec.l.toNat % 2 = 0
  fits : s.dec.l.toNat ≤ s.capTin
  index : s.dec.tidx.toNat < s.dec.l.toNat / 2
  hidden : s.decOutLen = 0
  phase : DecPhaseLegal s.dec

/-- The invariant: it holds after reset and every step keeps it. -/
structure Inv (s : State) : Prop where
  caps : CapsLegal s
  status : StatusLegal s
  buffers : BuffersLegal s
  counts : CountsLegal s
  encoding : s.state = .busy → s.lastOp = .encode → EncRunning s
  decoding : s.state = .busy → s.lastOp = .decode → DecRunning s

/-! ### Frames -/

/-- Everything the spec gives the machine and a token never touches: the encoder's side, the input buffers, the latched
length, LAST_OP, the length registers and the constants (R61, R62, R142), and the host's own record. -/
structure TokenFrame (s t : State) : Prop where
  lastOp : t.lastOp = s.lastOp
  encInLen : t.encInLen = s.encInLen
  encTokCount : t.encTokCount = s.encTokCount
  decTokLen : t.decTokLen = s.decTokLen
  capIn : t.capIn = s.capIn
  capTin : t.capTin = s.capTin
  enc : t.enc = s.enc
  latched : t.dec.l = s.dec.l
  ibuf : t.ibuf = s.ibuf
  etbuf : t.etbuf = s.etbuf
  dtbuf : t.dtbuf = s.dtbuf
  resets : t.resets = s.resets
  host : t.host = s.host
  observed : t.observed = s.observed

/-- What a token that completes does to the status: the next token follows, or the operation ends DONE with DEC_OUT_LEN
set (R168); ERR_CODE and ERR_INFO are unchanged. -/
structure TokenCompletes (s t : State) : Prop where
  index : t.dec.tidx = s.dec.tidx + 1
  errCode : t.errCode = s.errCode
  errInfo : t.errInfo = s.errInfo
  more : (s.dec.tidx + 1).toNat < s.dec.l.toNat / 2 →
    t.state = s.state ∧ t.decOutLen = s.decOutLen ∧ t.dec.dphase = .fetch
  last : ¬ (s.dec.tidx + 1).toNat < s.dec.l.toNat / 2 → t.state = .done ∧ t.decOutLen = t.dec.osize

/-- CORRUPT_STREAM at the current token: the error entry of R226 with no byte written (R164, R165, R173, R176, R222). -/
structure TokenCorrupt (s t : State) : Prop where
  state : t.state = .error
  errCode : t.errCode = .corruptStream
  errInfo : t.errInfo = s.dec.tidx
  decOutLen : t.decOutLen = s.dec.osize
  osize : t.dec.osize = s.dec.osize
  tidx : t.dec.tidx = s.dec.tidx
  obuf : t.obuf = s.obuf

/-- Everything an encoder step leaves alone (R61, R142): the decoder's side, IBUF, DTBUF, OBUF, the length registers,
LAST_OP, the constants, and the host's own record. -/
structure EncoderFrame (s t : State) : Prop where
  lastOp : t.lastOp = s.lastOp
  encInLen : t.encInLen = s.encInLen
  decTokLen : t.decTokLen = s.decTokLen
  decOutLen : t.decOutLen = s.decOutLen
  capIn : t.capIn = s.capIn
  capTin : t.capTin = s.capTin
  dec : t.dec = s.dec
  latched : t.enc.n = s.enc.n
  ibuf : t.ibuf = s.ibuf
  dtbuf : t.dtbuf = s.dtbuf
  obuf : t.obuf = s.obuf
  resets : t.resets = s.resets
  host : t.host = s.host
  observed : t.observed = s.observed

end Sys2Proof.Machine
end

