-- ==== Sys2Proof/Certificates/Slice0/Obligations.lean ====
section
/-! DEFINITION. The statements for the provers. Each docstring names the rule of spec/ it formalises; a statement that
rests on a choice of the model says so and names the log entry. -/

open Sys2Proof Sys2Proof.Machine

/-! ### Encodings -/

/-- Decoding the encoding of a well-formed instruction gives it back, for all eight rows and every operand (30_encoding.md
R81, R85, R89). -/
def Obligations.DecodeEncodeRoundTrip : Prop :=
  ∀ i : Instr, i.wf = true → decode (encode i) = i

/-- Every token and every CMD value decodes to a well-formed instruction whose encoding it is: no value is reserved (R85,
R87, R89). -/
def Obligations.EncodeDecodeRoundTrip : Prop :=
  ∀ w : CodeWord, (decode w).wf = true ∧ encode (decode w) = w

/-- The class of a token by the masks of the opcode table on TOK16, with its fields as TOK16 numbers them (R84, R85). -/
def Obligations.TokenClassByTableMask : Prop :=
  ∀ p lit : Byte,
    let w : BitVec 16 := p ++ lit
    let off : Offset := w.extractLsb' 11 5
    let len : Length := w.extractLsb' 8 3
    (w &&& 0xFF00 = 0 → decodeToken p lit = .lit0 lit) ∧
    (w &&& 0x0700 = 0 → w &&& 0xF800 ≠ 0 → decodeToken p lit = .lito off lit) ∧
    (w &&& 0xF800 ≠ 0 → w &&& 0x0700 ≠ 0 → decodeToken p lit = .cpy off len lit) ∧
    (w &&& 0xF800 = 0 → w &&& 0x0700 ≠ 0 → decodeToken p lit = .bad0 len lit)

/-- PACK: DOMAIN exactly when a full-width operand is out of range, else 8·offset + length (R100). -/
def Obligations.PackChecksFullWidth : Prop :=
  (∀ off len : Word, (31 < off.toNat ∨ 7 < len.toNat → pack off len = none) ∧
    (off.toNat ≤ 31 → len.toNat ≤ 7 → pack off len = some (BitVec.ofNat 8 (8 * off.toNat + len.toNat)))) ∧
  pack 31 7 = some 0xFF ∧ pack 0 0 = some 0x00 ∧ pack 32 0 = none ∧ pack 0 8 = none ∧
  pack 0 3 = some 0x03 ∧ pack 2 3 = some 0x13

/-- UNPACK: total, the two zero-extended fields of every byte (R101). -/
def Obligations.UnpackIsTotal : Prop :=
  (∀ p : Byte, unpack p = (BitVec.ofNat 32 (p.toNat / 8), BitVec.ofNat 32 (p.toNat % 8))) ∧
  unpack 0x00 = (0, 0) ∧ unpack 0xFF = (31, 7) ∧ unpack 0x01 = (0, 1) ∧ unpack 0x0E = (1, 6)

/-- The packing round trips, both ways (R102). -/
def Obligations.PackingRoundTrip : Prop :=
  (∀ off len : Word, off.toNat ≤ 31 → len.toNat ≤ 7 → ∃ p, pack off len = some p ∧ unpack p = (off, len)) ∧
  ∀ p : Byte, pack (unpack p).1 (unpack p).2 = some p

/-- The command words (R89). -/
def Obligations.CommandWordDecoding : Prop :=
  decodeCommand 0x00000001 = .startEncode ∧
  decodeCommand 0x00000002 = .startDecode ∧
  decodeCommand 0x00000003 = .clear ∧
  ∀ v : Word, v ≠ 1 → v ≠ 2 → v ≠ 3 → decodeCommand v = .illegalCmd v

/-- Words written out from the spec's encodings decode to the instructions they stand for (R85, R89, R91; the examples of
42_decoder.md section 2). -/
def Obligations.SpecWordsDecode : Prop :=
  decode (.token 0x00 0x61) = .lit0 0x61 ∧
  decode (.token 0x08 0x62) = .lito 1 0x62 ∧
  decode (.token 0xF8 0x61) = .lito 31 0x61 ∧
  decode (.token 0x0D 0x78) = .cpy 1 5 0x78 ∧
  decode (.token 0xFE 0x67) = .cpy 31 6 0x67 ∧
  decode (.token 0x03 0x61) = .bad0 3 0x61 ∧
  decode (.command 0x00000001) = .startEncode ∧
  decode (.command 0x00000002) = .startDecode ∧
  decode (.command 0x00000003) = .clear ∧
  decode (.command 0x80000001) = .illegalCmd 0x80000001

/-! ### A step runs the decoded instruction -/

/-- A running decode at D_FETCH whose turn it is executes the token whose two bytes stand at tidx: when the host has
nothing to do, and when it waits or polls (R162, R71, R13; log 6, log 8, log 19). -/
def Obligations.StepRunsDecodedToken : Prop :=
  ∀ s : State, s.state = .busy → s.lastOp = .decode → s.dec.dphase = .fetch →
    2 * s.dec.tidx.toNat + 1 < s.capTin →
    let i := decode (.token (byteAt s .dtbuf (2 * s.dec.tidx.toNat)) (byteAt s .dtbuf (2 * s.dec.tidx.toNat + 1)))
    (s.host = [] → step s = exec i s) ∧
    (∀ rest, s.host = .wait :: rest → step s = exec i { s with host := rest }) ∧
    (∀ rest, s.host = .poll :: rest → step s = exec i s)

/-- A host write to CMD runs the command it encodes (R42, R200). -/
def Obligations.StepRunsDecodedCommand : Prop :=
  ∀ (s : State) (v : Word) (rest : List HostOp), s.host = .regWrite 0x00 4 v :: rest →
    step s = exec (decode (.command v)) { s with host := rest }

/-- A placed code word is what the next step runs (the model's way to place one: log 1, log 16). -/
def Obligations.PlacedWordRunsNext : Prop :=
  ∀ (s : State) (w : Nat),
    step (s.withFetchWord 32 w) = exec (decodeCommand (BitVec.ofNat 32 w)) s ∧
    (2 * s.dec.tidx.toNat + 1 < s.capTin →
      step (s.withFetchWord 16 w) =
        exec (decodeToken (BitVec.ofNat 8 (w / 256)) (BitVec.ofNat 8 w)) { s.withFetchWord 16 w with host := s.host })

/-! ### The four tokens -/

/-- LIT0, the token with P = 0x00, completes in every state with room in OBUF: the literal is appended, no check fails,
and nothing else is written (R169). -/
def Obligations.Lit0AppendsLiteral : Prop :=
  ∀ lit : Byte, decodeToken 0x00 lit = .lit0 lit ∧
  ∀ s : State, CapsLegal s → s.dec.osize.toNat < 4 * s.capTin →
    ∃ t, exec (.lit0 lit) s = .next t ∧ TokenFrame s t ∧ TokenCompletes s t ∧
      t.dec.osize.toNat = s.dec.osize.toNat + 1 ∧
      t.dec.doff = 0 ∧ t.dec.dlen = 0 ∧ t.dec.dlit = lit ∧ t.dec.dk = 0 ∧
      byteAt t .obuf s.dec.osize.toNat = lit ∧
      ∀ i, i ≠ s.dec.osize.toNat → byteAt t .obuf i = byteAt s .obuf i

/-- LITO, the token with P[2:0] = 0 and P[7:3] ≠ 0: with an offset inside the history it appends its literal and copies
nothing; with an offset beyond it raises CORRUPT_STREAM and writes no byte (R170). -/
def Obligations.LitoAppendsLiteral : Prop :=
  (∀ p lit : Byte, lengthField p = 0 → offsetField p ≠ 0 → decodeToken p lit = .lito (offsetField p) lit) ∧
  ∀ (s : State) (off : Offset) (lit : Byte),
    (s.dec.osize.toNat < off.toNat → ∃ t, exec (.lito off lit) s = .next t ∧ TokenFrame s t ∧ TokenCorrupt s t) ∧
    (CapsLegal s → s.dec.osize.toNat < 4 * s.capTin → off.toNat ≤ s.dec.osize.toNat →
      ∃ t, exec (.lito off lit) s = .next t ∧ TokenFrame s t ∧ TokenCompletes s t ∧
        t.dec.osize.toNat = s.dec.osize.toNat + 1 ∧
        t.dec.doff = off ∧ t.dec.dlen = 0 ∧ t.dec.dlit = lit ∧ t.dec.dk = 0 ∧
        byteAt t .obuf s.dec.osize.toNat = lit ∧
        ∀ i, i ≠ s.dec.osize.toNat → byteAt t .obuf i = byteAt s .obuf i)

/-- CPY, the token with P[2:0] ≠ 0 and P[7:3] ≠ 0: with an offset inside the history each copied byte equals the byte
`off` before it in the new output, written by the same copy where the ranges overlap, and the literal follows; with an
offset beyond it raises CORRUPT_STREAM and writes no byte (R171, R166). -/
def Obligations.CpyReplaysThenAppends : Prop :=
  (∀ p lit : Byte, lengthField p ≠ 0 → offsetField p ≠ 0 →
    decodeToken p lit = .cpy (offsetField p) (lengthField p) lit) ∧
  ∀ (s : State) (off : Offset) (len : Length) (lit : Byte),
    (s.dec.osize.toNat < off.toNat → ∃ t, exec (.cpy off len lit) s = .next t ∧ TokenFrame s t ∧ TokenCorrupt s t) ∧
    (CapsLegal s → off ≠ 0 → off.toNat ≤ s.dec.osize.toNat → s.dec.osize.toNat + len.toNat < 4 * s.capTin →
      ∃ t, exec (.cpy off len lit) s = .next t ∧ TokenFrame s t ∧ TokenCompletes s t ∧
        t.dec.osize.toNat = s.dec.osize.toNat + len.toNat + 1 ∧
        t.dec.doff = off ∧ t.dec.dlen = len ∧ t.dec.dlit = lit ∧ t.dec.dk = len ∧
        (∀ j, j < len.toNat →
          byteAt t .obuf (s.dec.osize.toNat + j) = byteAt t .obuf (s.dec.osize.toNat + j - off.toNat)) ∧
        byteAt t .obuf (s.dec.osize.toNat + len.toNat) = lit ∧
        ∀ i, i < s.dec.osize.toNat ∨ s.dec.osize.toNat + len.toNat < i → byteAt t .obuf i = byteAt s .obuf i)

/-- BAD0, the token with P[7:3] = 0 and P[2:0] ≠ 0, raises CORRUPT_STREAM at its own index in every state and writes no
byte (R172). -/
def Obligations.Bad0RaisesCorruptStream : Prop :=
  (∀ p lit : Byte, lengthField p ≠ 0 → offsetField p = 0 → decodeToken p lit = .bad0 (lengthField p) lit) ∧
  ∀ (s : State) (len : Length) (lit : Byte),
    ∃ t, exec (.bad0 len lit) s = .next t ∧ TokenFrame s t ∧ TokenCorrupt s t

/-- The back-reference check of every token, whatever its length: an offset above the output size is CORRUPT_STREAM before
any byte is written; an offset equal to it is allowed, and a copy then starts at OBUF[0] (R164). -/
def Obligations.OffsetBeyondOutputIsCorrupt : Prop :=
  ∀ (s : State) (p lit : Byte),
    (s.dec.osize.toNat < (offsetField p).toNat →
      ∃ t, exec (decodeToken p lit) s = .next t ∧ TokenFrame s t ∧ TokenCorrupt s t) ∧
    (CapsLegal s → offsetField p ≠ 0 → (offsetField p).toNat = s.dec.osize.toNat →
      s.dec.osize.toNat + (lengthField p).toNat < 4 * s.capTin →
      ∃ t, exec (decodeToken p lit) s = .next t ∧ TokenCompletes s t ∧
        (lengthField p ≠ 0 → byteAt t .obuf s.dec.osize.toNat = byteAt s .obuf 0))

/-- A token completes fully or writes nothing, and it never rewrites earlier output (R173). -/
def Obligations.TokenCompletesOrWritesNothing : Prop :=
  ∀ (i : Instr) (s t : State), i.isToken = true → CapsLegal s → exec i s = .next t →
    TokenFrame s t ∧
    (TokenCorrupt s t ∨
      TokenCompletes s t ∧ t.dec.osize.toNat = s.dec.osize.toNat + t.dec.dlen.toNat + 1 ∧
        ∀ j, j < s.dec.osize.toNat → byteAt t .obuf j = byteAt s .obuf j)

/-- The reference micro-step sequencer, run over one token, ends in exactly the state the token's meaning gives: two steps
for a token a check rejects, and three beside the copied bytes for any other (R175, R13). -/
def Obligations.TokenEqualsMicroSteps : Prop :=
  ∀ s : State, s.dec.dphase = .fetch → 2 * s.dec.tidx.toNat + 1 < s.capTin →
    let p := byteAt s .dtbuf (2 * s.dec.tidx.toNat)
    let lit := byteAt s .dtbuf (2 * s.dec.tidx.toNat + 1)
    let off := (offsetField p).toNat
    let len := (lengthField p).toNat
    decMicroSteps (if s.dec.osize.toNat < off ∨ off = 0 ∧ 0 < len then 2 else len + 3) s = exec (decodeToken p lit) s

/-! ### The four commands -/

/-- START_ENCODE: above the capacity, LENGTH_ERROR with no engine started; otherwise BUSY, ENCODE, no error,
ENC_TOK_COUNT 0, the length latched and the encoder at its first search; an empty input is DONE at once with no token.
Nothing else changes (R201; the latched registers by R134 and R21). -/
def Obligations.StartEncodeCommand : Prop :=
  ∀ s : State, s.state ≠ .busy →
    (s.capIn < s.encInLen.toNat →
      exec .startEncode s = .next { s with
        state := .error, lastOp := .encode, errCode := .lengthError, errInfo := s.encInLen, encTokCount := 0 }) ∧
    (s.encInLen.toNat ≤ s.capIn → s.encInLen ≠ 0 →
      exec .startEncode s = .next { s with
        state := .busy, lastOp := .encode, errCode := .none, errInfo := 0, encTokCount := 0
        enc := { s.enc with n := s.encInLen, pos := 0, tcount := 0, ephase := .search } }) ∧
    (s.encInLen = 0 →
      exec .startEncode s = .next { s with
        state := .done, lastOp := .encode, errCode := .none, errInfo := 0, encTokCount := 0
        enc := { s.enc with n := 0, pos := 0, tcount := 0 } })

/-- START_DECODE: above the capacity, LENGTH_ERROR, also for an odd length; otherwise an odd length is
TRUNCATED_TOKEN_STREAM before any token with ERR_INFO = L and DEC_OUT_LEN = 0; an even one is BUSY, DECODE, no error,
DEC_OUT_LEN 0, the length latched and the decoder at its first fetch; an empty stream is DONE at once with no output.
Nothing else changes (R202, R223; the latched registers by R175 and R31). -/
def Obligations.StartDecodeCommand : Prop :=
  ∀ s : State, s.state ≠ .busy →
    (s.capTin < s.decTokLen.toNat →
      exec .startDecode s = .next { s with
        state := .error, lastOp := .decode, errCode := .lengthError, errInfo := s.decTokLen, decOutLen := 0 }) ∧
    (s.decTokLen.toNat ≤ s.capTin → s.decTokLen.toNat % 2 = 1 →
      exec .startDecode s = .next { s with
        state := .error, lastOp := .decode, errCode := .truncatedTokenStream, errInfo := s.decTokLen, decOutLen := 0
        dec := { s.dec with l := s.decTokLen, tidx := 0, osize := 0 } }) ∧
    (s.decTokLen.toNat ≤ s.capTin → s.decTokLen.toNat % 2 = 0 → s.decTokLen ≠ 0 →
      exec .startDecode s = .next { s with
        state := .busy, lastOp := .decode, errCode := .none, errInfo := 0, decOutLen := 0
        dec := { s.dec with l := s.decTokLen, tidx := 0, osize := 0, dphase := .fetch } }) ∧
    (s.decTokLen = 0 →
      exec .startDecode s = .next { s with
        state := .done, lastOp := .decode, errCode := .none, errInfo := 0, decOutLen := 0
        dec := { s.dec with l := 0, tidx := 0, osize := 0 } })

/-- LENGTH_ERROR as the host meets it: a CMD write of 1 or 2 while not BUSY with a length above the capacity records the
code 4, the command and the length, sets that command's result count to 0, starts no engine and changes no buffer
(R224). -/
def Obligations.LengthErrorOnStart : Prop :=
  ∀ (s : State) (rest : List HostOp), s.state ≠ .busy →
    ErrCode.lengthError.code = 4 ∧
    (s.host = .regWrite 0x00 4 1 :: rest → s.capIn < s.encInLen.toNat →
      step s = .next { s with
        state := .error, lastOp := .encode, errCode := .lengthError, errInfo := s.encInLen, encTokCount := 0
        host := rest }) ∧
    (s.host = .regWrite 0x00 4 2 :: rest → s.capTin < s.decTokLen.toNat →
      step s = .next { s with
        state := .error, lastOp := .decode, errCode := .lengthError, errInfo := s.decTokLen, decOutLen := 0
        host := rest })

/-- CLEAR: STATE, LAST_OP, ERR_CODE and ERR_INFO to 0; everything else unchanged (R203). -/
def Obligations.ClearResetsStatusOnly : Prop :=
  ∀ s : State, s.state ≠ .busy →
    exec .clear s = .next { s with state := .idle, lastOp := .none, errCode := .none, errInfo := 0 }

/-- An illegal command: ERROR, LAST_OP 0, code 5, ERR_INFO the written value; everything else unchanged (R204, R225). -/
def Obligations.IllegalCommandRecordsValue : Prop :=
  ∀ (s : State) (v : Word), s.state ≠ .busy → v ≠ 1 → v ≠ 2 → v ≠ 3 →
    decodeCommand v = .illegalCmd v ∧
    exec (.illegalCmd v) s = .next { s with
      state := .error, lastOp := .none, errCode := .illegalCommand, errInfo := v } ∧
    ErrCode.illegalCommand.code = 5

/-- Any CMD value written while BUSY changes nothing (R205). -/
def Obligations.CommandsIgnoredWhileBusy : Prop :=
  ∀ (s : State) (v : Word), s.state = .busy → exec (decodeCommand v) s = .next s

/-! ### The host's accesses -/

/-- A register read returns the register's current value and changes no state of the block: CMD and the reserved offsets
read 0, PARAM reads 0x0035071F, and the result counts read 0 while BUSY (R206, R42 to R52, R263). -/
def Obligations.RegisterReadsAreSideEffectFree : Prop :=
  ∀ (s : State) (off : Nat) (rest : List HostOp), off % 4 = 0 → off ≤ 0x3C →
    s.host = .regRead off 4 :: rest →
    ∃ v : Word, step s = .next { s with host := rest, observed := v :: s.observed } ∧
      (off = 0x00 → v = 0) ∧
      (off = 0x04 → v = statusWord s) ∧
      (off = 0x08 → v = s.errInfo) ∧
      (off = 0x0C → v = s.encInLen) ∧
      (off = 0x10 → v = if s.state = .busy then 0 else s.encTokCount) ∧
      (off = 0x14 → v = s.decTokLen) ∧
      (off = 0x18 → v = if s.state = .busy then 0 else s.decOutLen) ∧
      (off = 0x1C → v = 0x0035071F) ∧
      (off = 0x20 → v = BitVec.ofNat 32 s.capIn) ∧
      (off = 0x24 → v = BitVec.ofNat 32 s.capTin) ∧
      (0x28 ≤ off → v = 0)

/-- The fields of STATUS, in every state: STATE, LAST_OP and ERR_CODE at their bits, every reserved bit 0 (R43, R40, R220). -/
def Obligations.StatusFields : Prop :=
  ∀ s : State,
    (statusWord s).extractLsb' 0 2 = (match s.state with | .idle => 0 | .busy => 1 | .done => 2 | .error => 3) ∧
    (statusWord s).extractLsb' 2 2 = (match s.lastOp with | .none => 0 | .encode => 1 | .decode => 2) ∧
    (statusWord s).extractLsb' 4 4 = 0 ∧
    (statusWord s).extractLsb' 8 4 = (match s.errCode with
      | .none => 0 | .domain => 1 | .corruptStream => 2 | .truncatedTokenStream => 3 | .lengthError => 4
      | .illegalCommand => 5) ∧
    (statusWord s).extractLsb' 12 20 = 0

/-- The STATUS values that occur: the table of 95_test_vectors.md section 2.5 without DOMAIN, which no run reaches. -/
def Obligations.StatusValuesThatOccur : Prop :=
  ∀ s : State, Inv s →
    statusWord s ∈ ([0x00000000, 0x00000005, 0x00000009, 0x00000006, 0x0000000A, 0x0000020B, 0x0000030B, 0x00000407,
      0x0000040B, 0x00000503] : List Word)

/-- A write to a read-only register or to a reserved offset has no effect, in every state (R207, R52). -/
def Obligations.ReadOnlyWritesIgnored : Prop :=
  ∀ (s : State) (off : Nat) (v : Word) (rest : List HostOp),
    off ∈ [0x04, 0x08, 0x10, 0x18, 0x1C, 0x20, 0x24, 0x28, 0x2C, 0x30, 0x34, 0x38, 0x3C] →
    s.host = .regWrite off 4 v :: rest → step s = .next { s with host := rest }

/-- A write to a length register keeps all 32 bits when the block is not BUSY and is ignored when it is (R208). -/
def Obligations.LengthRegisterWrites : Prop :=
  ∀ (s : State) (v : Word) (rest : List HostOp),
    (s.host = .regWrite 0x0C 4 v :: rest →
      (s.state ≠ .busy → step s = .next { s with host := rest, encInLen := v }) ∧
      (s.state = .busy → step s = .next { s with host := rest })) ∧
    (s.host = .regWrite 0x14 4 v :: rest →
      (s.state ≠ .busy → step s = .next { s with host := rest, decTokLen := v }) ∧
      (s.state = .busy → step s = .next { s with host := rest }))

/-- Host buffer writes: dropped while BUSY; ETBUF and OBUF writes ignored in every state; outside BUSY a write to IBUF or
DTBUF sets that byte and no other and nothing else (R68, R60). -/
def Obligations.HostBufferWrites : Prop :=
  ∀ (s : State) (b : Buf) (i : Nat) (v : Byte) (rest : List HostOp),
    s.host = .bufWrite b i v :: rest → i < bufSize s b →
    (s.state = .busy ∨ b = .etbuf ∨ b = .obuf → step s = .next { s with host := rest }) ∧
    (s.state ≠ .busy → b = .ibuf ∨ b = .dtbuf →
      ∃ m, step s = .next { setBufMem s b m with host := rest } ∧
        readCell m i = some v ∧ ∀ j, j ≠ i → readCell m j = readCell (bufMem s b) j)

/-- Host buffer reads: 0x00 while BUSY; otherwise the byte there, for the host's own buffers and within the valid range of
an output buffer; no state of the block changes (R68, R66, R46, R48). -/
def Obligations.HostBufferReads : Prop :=
  ∀ (s : State) (b : Buf) (i : Nat) (rest : List HostOp),
    s.host = .bufRead b i :: rest → i < bufSize s b →
    ∃ v : Byte, step s = .next { s with host := rest, observed := v.setWidth 32 :: s.observed } ∧
      (s.state = .busy → v = 0x00) ∧
      (s.state ≠ .busy → b = .ibuf ∨ b = .dtbuf → v = byteAt s b i) ∧
      (s.state ≠ .busy → b = .etbuf → i < 2 * s.encTokCount.toNat → v = byteAt s .etbuf i) ∧
      (s.state ≠ .busy → b = .obuf → i < s.decOutLen.toNat → v = byteAt s .obuf i)

/-- Host accesses the spec leaves to the platform are refused by name: a register access that is not an aligned 32-bit one,
one beyond the window, and a buffer access beyond the buffer's size (R65, R74; U13, U14; log 10, log 11). -/
def Obligations.AccessesOutsideTheMapRefused : Prop :=
  ∀ (s : State) (rest : List HostOp),
    (∀ off width v, width ≠ 4 ∨ off % 4 ≠ 0 →
      (s.host = .regRead off width :: rest → step s = .refused (.registerAccessOther off width)) ∧
      (s.host = .regWrite off width v :: rest → step s = .refused (.registerAccessOther off width))) ∧
    (∀ off v, off % 4 = 0 → 0x40 ≤ off →
      (s.host = .regRead off 4 :: rest → step s = .refused (.outsideRegisterWindow off)) ∧
      (s.host = .regWrite off 4 v :: rest → step s = .refused (.outsideRegisterWindow off))) ∧
    (∀ b i v, bufSize s b ≤ i →
      (s.host = .bufRead b i :: rest → step s = .refused (.outsideBuffer b i)) ∧
      (s.host = .bufWrite b i v :: rest → step s = .refused (.outsideBuffer b i)))

/-- Reset in any state, BUSY included: every register at its reset value, the constants kept, no buffer byte written
(R260, R53). -/
def Obligations.ResetAtAnyTime : Prop :=
  ∀ (s : State) (rest : List HostOp), s.host = .reset :: rest →
    ∃ t, step s = .next t ∧
      t.state = .idle ∧ t.lastOp = .none ∧ t.errCode = .none ∧ t.errInfo = 0 ∧ statusWord t = 0x00000000 ∧
      t.encInLen = 0 ∧ t.encTokCount = 0 ∧ t.decTokLen = 0 ∧ t.decOutLen = 0 ∧
      t.capIn = s.capIn ∧ t.capTin = s.capTin ∧
      t.enc = { n := 0, pos := 0, s := 0, k := 0, bestLen := 0, bestS := 0, len := 0, off := 0, tcount := 0,
                ephase := .search } ∧
      t.dec = { tidx := 0, l := 0, osize := 0, doff := 0, dlen := 0, dlit := 0, dk := 0, dphase := .fetch } ∧
      ∀ b i, readCell (bufMem t b) i = none

/-! ### Rules about every step -/

/-- CAP_IN and CAP_TIN are constants: no step changes them (R50, R51, R260). -/
def Obligations.CapacitiesNeverChange : Prop :=
  ∀ s t : State, step s = .next t → t.capIn = s.capIn ∧ t.capTin = s.capTin

/-- No engine writes IBUF or DTBUF: a step changes one of them only by a host write while not BUSY, or by reset (R61, R62,
R71). -/
def Obligations.OnlyHostWritesInputBuffers : Prop :=
  ∀ (s t : State) (b : Buf), step s = .next t → b = .ibuf ∨ b = .dtbuf → bufMem t b ≠ bufMem s b →
    (∃ i v rest, s.host = .bufWrite b i v :: rest ∧ s.state ≠ .busy) ∨ ∃ rest, s.host = .reset :: rest

/-- Only the running encoder writes ETBUF and only the running decoder writes OBUF, reset apart (R61, R62, R60). -/
def Obligations.OnlyEnginesWriteOutputBuffers : Prop :=
  ∀ s t : State, step s = .next t → (∀ rest, s.host ≠ .reset :: rest) →
    (t.etbuf ≠ s.etbuf → s.state = .busy ∧ s.lastOp = .encode) ∧
    (t.obuf ≠ s.obuf → s.state = .busy ∧ s.lastOp = .decode)

/-- STATE leaves IDLE, DONE or ERROR only by a command or by reset, and BUSY only by a step of the engine, to DONE or
ERROR, or by reset (R40, R205, R209, R229). -/
def Obligations.WhatMovesTheBlockState : Prop :=
  ∀ s t : State, step s = .next t → t.state ≠ s.state → (∀ rest, s.host ≠ .reset :: rest) →
    (s.state ≠ .busy → ∃ v rest, s.host = .regWrite 0x00 4 v :: rest) ∧
    (s.state = .busy → (t.state = .done ∨ t.state = .error) ∧
      (s.host = [] ∨ (∃ rest, s.host = .wait :: rest) ∨ ∃ rest, s.host = .poll :: rest))

/-- A step of the encoder changes nothing of the decoder's side, IBUF or the length registers, and of ETBUF at most the
two bytes of the record it emits (R142, R61, R130). -/
def Obligations.EncoderStepFrame : Prop :=
  ∀ s t : State, encStep s = .next t →
    EncoderFrame s t ∧
    ∀ i, byteAt t .etbuf i ≠ byteAt s .etbuf i →
      s.enc.ephase = .emit ∧ (i = 2 * s.enc.tcount.toNat ∨ i = 2 * s.enc.tcount.toNat + 1)

/-- E_EMIT appends the record: the packed byte, then the literal IBUF[pos + len] (R129, R130). -/
def Obligations.EmitAppendsRecord : Prop :=
  ∀ s : State, s.enc.ephase = .emit → s.enc.tcount.toNat < s.capIn →
    s.enc.pos.toNat + s.enc.len.toNat < s.capIn →
    ∃ t, encStep s = .next t ∧
      byteAt t .etbuf (2 * s.enc.tcount.toNat) = BitVec.ofNat 8 ((s.enc.off.toNat <<< 3) ||| s.enc.len.toNat) ∧
      byteAt t .etbuf (2 * s.enc.tcount.toNat + 1) = byteAt s .ibuf (s.enc.pos.toNat + s.enc.len.toNat) ∧
      (∀ i, i ≠ 2 * s.enc.tcount.toNat → i ≠ 2 * s.enc.tcount.toNat + 1 → byteAt t .etbuf i = byteAt s .etbuf i) ∧
      t.enc = { s.enc with tcount := s.enc.tcount + 1, ephase := .advance } ∧ t.state = s.state

/-- The invariant holds after reset (R260; the buffers and capacities by R7, R53). -/
def Obligations.InvariantHoldsAtReset : Prop := Inv State.reset

/-- Every step from a state that meets the invariant keeps it: canonical memories within their sizes, a status that can
occur, latched lengths equal to their registers, and the ranges of every datapath register (R21 to R34, R40, R60, R137,
R141, R178, R266). -/
def Obligations.EveryStepKeepsInvariant : Prop :=
  ∀ s t : State, Inv s → step s = .next t → Inv t

/-- No engine forms an index outside its buffer: from a state that meets the invariant no step faults (R61, R62, R74, R138,
R178). -/
def Obligations.NoEngineAccessFaults : Prop :=
  ∀ s : State, Inv s → ∀ r, step s ≠ .fault r

/-- A running operation ends in DONE or ERROR after finitely many steps once the host leaves the engine alone (R268). -/
def Obligations.EveryOperationEnds : Prop :=
  ∀ s : State, Inv s → s.state = .busy → s.host = [] →
    ∃ k t, Sys2Proof.core.run k s = .next t ∧ (t.state = .done ∨ t.state = .error)

/-! ### The sequencers compute the normative functions -/

/-- An accepted START_ENCODE runs to DONE with the tokens of ENCODE_F in ETBUF and their count in ENC_TOK_COUNT, and
leaves the input and the decoder's side as they were (R133, R134, R142). -/
def Obligations.EncoderComputesEncodeF : Prop :=
  ∀ s : State, CapsLegal s → s.state ≠ .busy → s.encInLen.toNat ≤ s.capIn → s.host = [.regWrite 0x00 4 0x00000001] →
    ∃ k t T, Sys2Proof.core.run k s = .next t ∧
      encodeF (bufBytes s .ibuf s.encInLen.toNat) = .ok T ∧
      t.state = .done ∧ t.lastOp = .encode ∧ t.errCode = .none ∧ t.errInfo = 0 ∧
      t.encTokCount.toNat = T.length ∧
      bufBytes t .etbuf (2 * T.length) = serialise T ∧
      (∀ i, 2 * T.length ≤ i → byteAt t .etbuf i = byteAt s .etbuf i) ∧
      t.ibuf = s.ibuf ∧ t.dtbuf = s.dtbuf ∧ t.obuf = s.obuf ∧ t.dec = s.dec ∧
      t.encInLen = s.encInLen ∧ t.decTokLen = s.decTokLen ∧ t.decOutLen = s.decOutLen

/-- An accepted START_DECODE runs to the result of DECODE_F: DONE with the output in OBUF and its length in DEC_OUT_LEN,
or ERROR with the record and the output of the tokens before the faulting one (R174, R175, R176, R228). -/
def Obligations.DecoderComputesDecodeF : Prop :=
  ∀ s : State, CapsLegal s → s.state ≠ .busy → s.decTokLen.toNat ≤ s.capTin → s.host = [.regWrite 0x00 4 0x00000002] →
    ∃ k t, Sys2Proof.core.run k s = .next t ∧ t.lastOp = .decode ∧
      (match decodeF (bufBytes s .dtbuf s.decTokLen.toNat) with
        | .ok out => t.state = .done ∧ t.errCode = .none ∧ t.errInfo = 0 ∧ t.decOutLen.toNat = out.length ∧
            bufBytes t .obuf out.length = out
        | .truncated n => t.state = .error ∧ t.errCode = .truncatedTokenStream ∧ t.errInfo.toNat = n ∧
            t.decOutLen = 0 ∧ t.obuf = s.obuf
        | .corrupt i out => t.state = .error ∧ t.errCode = .corruptStream ∧ t.errInfo.toNat = i ∧
            t.decOutLen.toNat = out.length ∧ bufBytes t .obuf out.length = out) ∧
      t.ibuf = s.ibuf ∧ t.etbuf = s.etbuf ∧ t.dtbuf = s.dtbuf ∧ t.enc = s.enc ∧
      t.encInLen = s.encInLen ∧ t.encTokCount = s.encTokCount ∧ t.decTokLen = s.decTokLen

/-- Decoding the encoding of any byte sequence, the empty one included, gives it back: no error, and no DOMAIN in between
(R179, R180, R141). -/
def Obligations.RoundTripIdentity : Prop :=
  ∀ inp : List Byte, ∃ T, encodeF inp = .ok T ∧ (serialise T).length = 2 * T.length ∧ decodeF (serialise T) = .ok inp

/-! ### The normative functions -/

/-- ML(s, pos) is the longest run: at most 7, inside the input, equal at every index, and maximal (R123). -/
def Obligations.MatchLengthIsLongestRun : Prop :=
  ∀ (inp : List Byte) (s pos : Nat), s < pos → pos ≤ inp.length →
    let k := matchLength inp s pos
    k ≤ 7 ∧ pos + k ≤ inp.length ∧
    (∀ j, j < k → inp[s + j]? = inp[pos + j]?) ∧
    (k < 7 → pos + k < inp.length → inp[s + k]? ≠ inp[pos + k]?)

/-- The search takes the greatest match of the window and, among equal ones, the oldest; with no match the length is 0 and
the start is pos (R122, R124, R125, R139). -/
def Obligations.SearchTakesOldestLongest : Prop :=
  ∀ (inp : List Byte) (pos : Nat),
    let best := bestMatch inp pos
    (∀ c, pos - 31 ≤ c → c < pos → matchLength inp c pos ≤ best.1) ∧
    (0 < best.1 → pos - 31 ≤ best.2 ∧ best.2 < pos ∧ matchLength inp best.2 pos = best.1 ∧
      ∀ c, pos - 31 ≤ c → c < best.2 → matchLength inp c pos < best.1) ∧
    (best.1 = 0 → best.2 = pos)

/-- Every token ENCODE_F emits at a cursor, the cursor being the sum of (length + 1) over the tokens before it: the ranges
of its length and offset, offset 0 exactly with length 0, and the literal (R137, R86). -/
def Obligations.EmittedTokensAreCanonical : Prop :=
  ∀ (inp : List Byte) (T : List Token), encodeF inp = .ok T →
    ∀ (i : Nat) (tok : Token), T[i]? = some tok →
      let pos := ((T.take i).map fun t => t.len + 1).sum
      tok.len ≤ 7 ∧ pos + tok.len + 1 ≤ inp.length ∧ (tok.off = 0 ↔ tok.len = 0) ∧
      (0 < tok.len → 1 ≤ tok.off ∧ tok.off ≤ min 31 pos) ∧ inp[pos + tok.len]? = some tok.lit

/-- The tokens cover the input exactly, the last literal is the final byte, there are at most as many tokens as bytes, and
none exactly for the empty input (R138, R140, R131). -/
def Obligations.TokensCoverInput : Prop :=
  ∀ (inp : List Byte) (T : List Token), encodeF inp = .ok T →
    (T.map fun t => t.len + 1).sum = inp.length ∧ T.length ≤ inp.length ∧ (T.length = 0 ↔ inp.length = 0) ∧
    (serialise T).length ≤ 2 * inp.length ∧
    (T.getLast?.map fun t => t.lit) = inp.getLast?

/-- ENCODE_F never returns DOMAIN (R141). -/
def Obligations.EncodeNeverDomain : Prop :=
  ∀ inp : List Byte, ∃ T, encodeF inp = .ok T

/-- The output length of a decode that succeeds: the sum of (length + 1) over the tokens, at most 4·L (R177, R178). -/
def Obligations.DecodedLength : Prop :=
  ∀ (tb out : List Byte), decodeF tb = .ok out →
    out.length = ((List.range (tb.length / 2)).map fun t => (lengthField (tb.getD (2 * t) 0)).toNat + 1).sum ∧
    out.length ≤ 4 * tb.length
end

