-- ==== Sys2Proof/Laws/Decode.lean ====
section
/-! SUPPORT. The packed byte and its two fields (40_codec.md R100 to R102). -/

namespace Sys2Proof

theorem offsetField_packedByte (off : Offset) (len : Length) : offsetField (packedByte off.toNat len.toNat) = off := by
  revert off len; decide

theorem lengthField_packedByte (off : Offset) (len : Length) : lengthField (packedByte off.toNat len.toNat) = len := by
  revert off len; decide

theorem packedByte_fields (p : Byte) : packedByte (offsetField p).toNat (lengthField p).toNat = p := by
  revert p; decide

end Sys2Proof
end

