-- ==== Sys2Proof/Laws/State.lean ====
section
/-! SUPPORT. One lemma for each field and each update of the state, so that no later proof unfolds a record update. -/

namespace Sys2Proof.Machine


/-! ### putByte -/

@[simp] theorem putByte_state (s : State) (b : Buf) (i : Nat) (v : Byte) : (putByte s b i v).state = s.state := by cases b <;> rfl
@[simp] theorem putByte_lastOp (s : State) (b : Buf) (i : Nat) (v : Byte) : (putByte s b i v).lastOp = s.lastOp := by cases b <;> rfl
@[simp] theorem putByte_errCode (s : State) (b : Buf) (i : Nat) (v : Byte) : (putByte s b i v).errCode = s.errCode := by cases b <;> rfl
@[simp] theorem putByte_errInfo (s : State) (b : Buf) (i : Nat) (v : Byte) : (putByte s b i v).errInfo = s.errInfo := by cases b <;> rfl
@[simp] theorem putByte_encInLen (s : State) (b : Buf) (i : Nat) (v : Byte) : (putByte s b i v).encInLen = s.encInLen := by cases b <;> rfl
@[simp] theorem putByte_encTokCount (s : State) (b : Buf) (i : Nat) (v : Byte) : (putByte s b i v).encTokCount = s.encTokCount := by cases b <;> rfl
@[simp] theorem putByte_decTokLen (s : State) (b : Buf) (i : Nat) (v : Byte) : (putByte s b i v).decTokLen = s.decTokLen := by cases b <;> rfl
@[simp] theorem putByte_decOutLen (s : State) (b : Buf) (i : Nat) (v : Byte) : (putByte s b i v).decOutLen = s.decOutLen := by cases b <;> rfl
@[simp] theorem putByte_capIn (s : State) (b : Buf) (i : Nat) (v : Byte) : (putByte s b i v).capIn = s.capIn := by cases b <;> rfl
@[simp] theorem putByte_capTin (s : State) (b : Buf) (i : Nat) (v : Byte) : (putByte s b i v).capTin = s.capTin := by cases b <;> rfl
@[simp] theorem putByte_enc (s : State) (b : Buf) (i : Nat) (v : Byte) : (putByte s b i v).enc = s.enc := by cases b <;> rfl
@[simp] theorem putByte_dec (s : State) (b : Buf) (i : Nat) (v : Byte) : (putByte s b i v).dec = s.dec := by cases b <;> rfl
@[simp] theorem putByte_resets (s : State) (b : Buf) (i : Nat) (v : Byte) : (putByte s b i v).resets = s.resets := by cases b <;> rfl
@[simp] theorem putByte_host (s : State) (b : Buf) (i : Nat) (v : Byte) : (putByte s b i v).host = s.host := by cases b <;> rfl
@[simp] theorem putByte_observed (s : State) (b : Buf) (i : Nat) (v : Byte) : (putByte s b i v).observed = s.observed := by cases b <;> rfl
@[simp] theorem putByte_bufSize (s : State) (b c : Buf) (i : Nat) (v : Byte) : bufSize (putByte s b i v) c = bufSize s c := by
  cases b <;> cases c <;> rfl
theorem putByte_bufMem_same (s : State) (b : Buf) (i : Nat) (v : Byte) :
    bufMem (putByte s b i v) b = writeCell (bufMem s b) i v := by cases b <;> rfl
theorem putByte_bufMem_other (s : State) (b c : Buf) (i : Nat) (v : Byte) (h : c ≠ b) :
    bufMem (putByte s b i v) c = bufMem s c := by cases b <;> cases c <;> first | rfl | exact absurd rfl h
@[simp] theorem putByte_ibuf_ibuf (s : State) (i : Nat) (v : Byte) : (putByte s .ibuf i v).ibuf = writeCell s.ibuf i v := rfl
@[simp] theorem putByte_ibuf_etbuf (s : State) (i : Nat) (v : Byte) : (putByte s .ibuf i v).etbuf = s.etbuf := rfl
@[simp] theorem putByte_ibuf_dtbuf (s : State) (i : Nat) (v : Byte) : (putByte s .ibuf i v).dtbuf = s.dtbuf := rfl
@[simp] theorem putByte_ibuf_obuf (s : State) (i : Nat) (v : Byte) : (putByte s .ibuf i v).obuf = s.obuf := rfl
@[simp] theorem putByte_etbuf_ibuf (s : State) (i : Nat) (v : Byte) : (putByte s .etbuf i v).ibuf = s.ibuf := rfl
@[simp] theorem putByte_etbuf_etbuf (s : State) (i : Nat) (v : Byte) : (putByte s .etbuf i v).etbuf = writeCell s.etbuf i v := rfl
@[simp] theorem putByte_etbuf_dtbuf (s : State) (i : Nat) (v : Byte) : (putByte s .etbuf i v).dtbuf = s.dtbuf := rfl
@[simp] theorem putByte_etbuf_obuf (s : State) (i : Nat) (v : Byte) : (putByte s .etbuf i v).obuf = s.obuf := rfl
@[simp] theorem putByte_dtbuf_ibuf (s : State) (i : Nat) (v : Byte) : (putByte s .dtbuf i v).ibuf = s.ibuf := rfl
@[simp] theorem putByte_dtbuf_etbuf (s : State) (i : Nat) (v : Byte) : (putByte s .dtbuf i v).etbuf = s.etbuf := rfl
@[simp] theorem putByte_dtbuf_dtbuf (s : State) (i : Nat) (v : Byte) : (putByte s .dtbuf i v).dtbuf = writeCell s.dtbuf i v := rfl
@[simp] theorem putByte_dtbuf_obuf (s : State) (i : Nat) (v : Byte) : (putByte s .dtbuf i v).obuf = s.obuf := rfl
@[simp] theorem putByte_obuf_ibuf (s : State) (i : Nat) (v : Byte) : (putByte s .obuf i v).ibuf = s.ibuf := rfl
@[simp] theorem putByte_obuf_etbuf (s : State) (i : Nat) (v : Byte) : (putByte s .obuf i v).etbuf = s.etbuf := rfl
@[simp] theorem putByte_obuf_dtbuf (s : State) (i : Nat) (v : Byte) : (putByte s .obuf i v).dtbuf = s.dtbuf := rfl
@[simp] theorem putByte_obuf_obuf (s : State) (i : Nat) (v : Byte) : (putByte s .obuf i v).obuf = writeCell s.obuf i v := rfl

/-! ### publishCount, raise and finish -/

@[simp] theorem publishCount_state (who : Raiser) (s : State) : (publishCount who s).state = s.state := by cases who <;> rfl
@[simp] theorem publishCount_lastOp (who : Raiser) (s : State) : (publishCount who s).lastOp = s.lastOp := by cases who <;> rfl
@[simp] theorem publishCount_errCode (who : Raiser) (s : State) : (publishCount who s).errCode = s.errCode := by cases who <;> rfl
@[simp] theorem publishCount_errInfo (who : Raiser) (s : State) : (publishCount who s).errInfo = s.errInfo := by cases who <;> rfl
@[simp] theorem publishCount_encInLen (who : Raiser) (s : State) : (publishCount who s).encInLen = s.encInLen := by cases who <;> rfl
@[simp] theorem publishCount_encoder_encTokCount (s : State) : (publishCount .encoder s).encTokCount = s.enc.tcount := rfl
@[simp] theorem publishCount_decoder_encTokCount (s : State) : (publishCount .decoder s).encTokCount = s.encTokCount := rfl
@[simp] theorem publishCount_command_encTokCount (s : State) : (publishCount .command s).encTokCount = s.encTokCount := rfl
@[simp] theorem publishCount_decTokLen (who : Raiser) (s : State) : (publishCount who s).decTokLen = s.decTokLen := by cases who <;> rfl
@[simp] theorem publishCount_encoder_decOutLen (s : State) : (publishCount .encoder s).decOutLen = s.decOutLen := rfl
@[simp] theorem publishCount_decoder_decOutLen (s : State) : (publishCount .decoder s).decOutLen = s.dec.osize := rfl
@[simp] theorem publishCount_command_decOutLen (s : State) : (publishCount .command s).decOutLen = s.decOutLen := rfl
@[simp] theorem publishCount_capIn (who : Raiser) (s : State) : (publishCount who s).capIn = s.capIn := by cases who <;> rfl
@[simp] theorem publishCount_capTin (who : Raiser) (s : State) : (publishCount who s).capTin = s.capTin := by cases who <;> rfl
@[simp] theorem publishCount_enc (who : Raiser) (s : State) : (publishCount who s).enc = s.enc := by cases who <;> rfl
@[simp] theorem publishCount_dec (who : Raiser) (s : State) : (publishCount who s).dec = s.dec := by cases who <;> rfl
@[simp] theorem publishCount_ibuf (who : Raiser) (s : State) : (publishCount who s).ibuf = s.ibuf := by cases who <;> rfl
@[simp] theorem publishCount_etbuf (who : Raiser) (s : State) : (publishCount who s).etbuf = s.etbuf := by cases who <;> rfl
@[simp] theorem publishCount_dtbuf (who : Raiser) (s : State) : (publishCount who s).dtbuf = s.dtbuf := by cases who <;> rfl
@[simp] theorem publishCount_obuf (who : Raiser) (s : State) : (publishCount who s).obuf = s.obuf := by cases who <;> rfl
@[simp] theorem publishCount_resets (who : Raiser) (s : State) : (publishCount who s).resets = s.resets := by cases who <;> rfl
@[simp] theorem publishCount_host (who : Raiser) (s : State) : (publishCount who s).host = s.host := by cases who <;> rfl
@[simp] theorem publishCount_observed (who : Raiser) (s : State) : (publishCount who s).observed = s.observed := by cases who <;> rfl
@[simp] theorem raise_state (who : Raiser) (e : ErrCode) (info : Word) (s : State) : (raise who e info s).state = .error := rfl
@[simp] theorem raise_lastOp (who : Raiser) (e : ErrCode) (info : Word) (s : State) : (raise who e info s).lastOp = s.lastOp := by cases who <;> rfl
@[simp] theorem raise_errCode (who : Raiser) (e : ErrCode) (info : Word) (s : State) : (raise who e info s).errCode = e := rfl
@[simp] theorem raise_errInfo (who : Raiser) (e : ErrCode) (info : Word) (s : State) : (raise who e info s).errInfo = info := rfl
@[simp] theorem raise_encInLen (who : Raiser) (e : ErrCode) (info : Word) (s : State) : (raise who e info s).encInLen = s.encInLen := by cases who <;> rfl
@[simp] theorem raise_encoder_encTokCount (e : ErrCode) (info : Word) (s : State) : (raise .encoder e info s).encTokCount = s.enc.tcount := rfl
@[simp] theorem raise_decoder_encTokCount (e : ErrCode) (info : Word) (s : State) : (raise .decoder e info s).encTokCount = s.encTokCount := rfl
@[simp] theorem raise_command_encTokCount (e : ErrCode) (info : Word) (s : State) : (raise .command e info s).encTokCount = s.encTokCount := rfl
@[simp] theorem raise_decTokLen (who : Raiser) (e : ErrCode) (info : Word) (s : State) : (raise who e info s).decTokLen = s.decTokLen := by cases who <;> rfl
@[simp] theorem raise_encoder_decOutLen (e : ErrCode) (info : Word) (s : State) : (raise .encoder e info s).decOutLen = s.decOutLen := rfl
@[simp] theorem raise_decoder_decOutLen (e : ErrCode) (info : Word) (s : State) : (raise .decoder e info s).decOutLen = s.dec.osize := rfl
@[simp] theorem raise_command_decOutLen (e : ErrCode) (info : Word) (s : State) : (raise .command e info s).decOutLen = s.decOutLen := rfl
@[simp] theorem raise_capIn (who : Raiser) (e : ErrCode) (info : Word) (s : State) : (raise who e info s).capIn = s.capIn := by cases who <;> rfl
@[simp] theorem raise_capTin (who : Raiser) (e : ErrCode) (info : Word) (s : State) : (raise who e info s).capTin = s.capTin := by cases who <;> rfl
@[simp] theorem raise_enc (who : Raiser) (e : ErrCode) (info : Word) (s : State) : (raise who e info s).enc = s.enc := by cases who <;> rfl
@[simp] theorem raise_dec (who : Raiser) (e : ErrCode) (info : Word) (s : State) : (raise who e info s).dec = s.dec := by cases who <;> rfl
@[simp] theorem raise_ibuf (who : Raiser) (e : ErrCode) (info : Word) (s : State) : (raise who e info s).ibuf = s.ibuf := by cases who <;> rfl
@[simp] theorem raise_etbuf (who : Raiser) (e : ErrCode) (info : Word) (s : State) : (raise who e info s).etbuf = s.etbuf := by cases who <;> rfl
@[simp] theorem raise_dtbuf (who : Raiser) (e : ErrCode) (info : Word) (s : State) : (raise who e info s).dtbuf = s.dtbuf := by cases who <;> rfl
@[simp] theorem raise_obuf (who : Raiser) (e : ErrCode) (info : Word) (s : State) : (raise who e info s).obuf = s.obuf := by cases who <;> rfl
@[simp] theorem raise_resets (who : Raiser) (e : ErrCode) (info : Word) (s : State) : (raise who e info s).resets = s.resets := by cases who <;> rfl
@[simp] theorem raise_host (who : Raiser) (e : ErrCode) (info : Word) (s : State) : (raise who e info s).host = s.host := by cases who <;> rfl
@[simp] theorem raise_observed (who : Raiser) (e : ErrCode) (info : Word) (s : State) : (raise who e info s).observed = s.observed := by cases who <;> rfl
@[simp] theorem finish_state (who : Raiser) (s : State) : (finish who s).state = .done := rfl
@[simp] theorem finish_lastOp (who : Raiser) (s : State) : (finish who s).lastOp = s.lastOp := by cases who <;> rfl
@[simp] theorem finish_errCode (who : Raiser) (s : State) : (finish who s).errCode = s.errCode := by cases who <;> rfl
@[simp] theorem finish_errInfo (who : Raiser) (s : State) : (finish who s).errInfo = s.errInfo := by cases who <;> rfl
@[simp] theorem finish_encInLen (who : Raiser) (s : State) : (finish who s).encInLen = s.encInLen := by cases who <;> rfl
@[simp] theorem finish_encoder_encTokCount (s : State) : (finish .encoder s).encTokCount = s.enc.tcount := rfl
@[simp] theorem finish_decoder_encTokCount (s : State) : (finish .decoder s).encTokCount = s.encTokCount := rfl
@[simp] theorem finish_command_encTokCount (s : State) : (finish .command s).encTokCount = s.encTokCount := rfl
@[simp] theorem finish_decTokLen (who : Raiser) (s : State) : (finish who s).decTokLen = s.decTokLen := by cases who <;> rfl
@[simp] theorem finish_encoder_decOutLen (s : State) : (finish .encoder s).decOutLen = s.decOutLen := rfl
@[simp] theorem finish_decoder_decOutLen (s : State) : (finish .decoder s).decOutLen = s.dec.osize := rfl
@[simp] theorem finish_command_decOutLen (s : State) : (finish .command s).decOutLen = s.decOutLen := rfl
@[simp] theorem finish_capIn (who : Raiser) (s : State) : (finish who s).capIn = s.capIn := by cases who <;> rfl
@[simp] theorem finish_capTin (who : Raiser) (s : State) : (finish who s).capTin = s.capTin := by cases who <;> rfl
@[simp] theorem finish_enc (who : Raiser) (s : State) : (finish who s).enc = s.enc := by cases who <;> rfl
@[simp] theorem finish_dec (who : Raiser) (s : State) : (finish who s).dec = s.dec := by cases who <;> rfl
@[simp] theorem finish_ibuf (who : Raiser) (s : State) : (finish who s).ibuf = s.ibuf := by cases who <;> rfl
@[simp] theorem finish_etbuf (who : Raiser) (s : State) : (finish who s).etbuf = s.etbuf := by cases who <;> rfl
@[simp] theorem finish_dtbuf (who : Raiser) (s : State) : (finish who s).dtbuf = s.dtbuf := by cases who <;> rfl
@[simp] theorem finish_obuf (who : Raiser) (s : State) : (finish who s).obuf = s.obuf := by cases who <;> rfl
@[simp] theorem finish_resets (who : Raiser) (s : State) : (finish who s).resets = s.resets := by cases who <;> rfl
@[simp] theorem finish_host (who : Raiser) (s : State) : (finish who s).host = s.host := by cases who <;> rfl
@[simp] theorem finish_observed (who : Raiser) (s : State) : (finish who s).observed = s.observed := by cases who <;> rfl

/-! ### acceptStatus, clearStatus, observe and latchToken -/

@[simp] theorem acceptStatus_state (op : LastOp) (s : State) : (acceptStatus op s).state = .busy := rfl
@[simp] theorem acceptStatus_lastOp (op : LastOp) (s : State) : (acceptStatus op s).lastOp = op := rfl
@[simp] theorem acceptStatus_errCode (op : LastOp) (s : State) : (acceptStatus op s).errCode = .none := rfl
@[simp] theorem acceptStatus_errInfo (op : LastOp) (s : State) : (acceptStatus op s).errInfo = 0 := rfl
@[simp] theorem acceptStatus_encInLen (op : LastOp) (s : State) : (acceptStatus op s).encInLen = s.encInLen := rfl
@[simp] theorem acceptStatus_encTokCount (op : LastOp) (s : State) : (acceptStatus op s).encTokCount = s.encTokCount := rfl
@[simp] theorem acceptStatus_decTokLen (op : LastOp) (s : State) : (acceptStatus op s).decTokLen = s.decTokLen := rfl
@[simp] theorem acceptStatus_decOutLen (op : LastOp) (s : State) : (acceptStatus op s).decOutLen = s.decOutLen := rfl
@[simp] theorem acceptStatus_capIn (op : LastOp) (s : State) : (acceptStatus op s).capIn = s.capIn := rfl
@[simp] theorem acceptStatus_capTin (op : LastOp) (s : State) : (acceptStatus op s).capTin = s.capTin := rfl
@[simp] theorem acceptStatus_enc (op : LastOp) (s : State) : (acceptStatus op s).enc = s.enc := rfl
@[simp] theorem acceptStatus_dec (op : LastOp) (s : State) : (acceptStatus op s).dec = s.dec := rfl
@[simp] theorem acceptStatus_ibuf (op : LastOp) (s : State) : (acceptStatus op s).ibuf = s.ibuf := rfl
@[simp] theorem acceptStatus_etbuf (op : LastOp) (s : State) : (acceptStatus op s).etbuf = s.etbuf := rfl
@[simp] theorem acceptStatus_dtbuf (op : LastOp) (s : State) : (acceptStatus op s).dtbuf = s.dtbuf := rfl
@[simp] theorem acceptStatus_obuf (op : LastOp) (s : State) : (acceptStatus op s).obuf = s.obuf := rfl
@[simp] theorem acceptStatus_resets (op : LastOp) (s : State) : (acceptStatus op s).resets = s.resets := rfl
@[simp] theorem acceptStatus_host (op : LastOp) (s : State) : (acceptStatus op s).host = s.host := rfl
@[simp] theorem acceptStatus_observed (op : LastOp) (s : State) : (acceptStatus op s).observed = s.observed := rfl
@[simp] theorem clearStatus_state (s : State) : (clearStatus s).state = .idle := rfl
@[simp] theorem clearStatus_lastOp (s : State) : (clearStatus s).lastOp = .none := rfl
@[simp] theorem clearStatus_errCode (s : State) : (clearStatus s).errCode = .none := rfl
@[simp] theorem clearStatus_errInfo (s : State) : (clearStatus s).errInfo = 0 := rfl
@[simp] theorem clearStatus_encInLen (s : State) : (clearStatus s).encInLen = s.encInLen := rfl
@[simp] theorem clearStatus_encTokCount (s : State) : (clearStatus s).encTokCount = s.encTokCount := rfl
@[simp] theorem clearStatus_decTokLen (s : State) : (clearStatus s).decTokLen = s.decTokLen := rfl
@[simp] theorem clearStatus_decOutLen (s : State) : (clearStatus s).decOutLen = s.decOutLen := rfl
@[simp] theorem clearStatus_capIn (s : State) : (clearStatus s).capIn = s.capIn := rfl
@[simp] theorem clearStatus_capTin (s : State) : (clearStatus s).capTin = s.capTin := rfl
@[simp] theorem clearStatus_enc (s : State) : (clearStatus s).enc = s.enc := rfl
@[simp] theorem clearStatus_dec (s : State) : (clearStatus s).dec = s.dec := rfl
@[simp] theorem clearStatus_ibuf (s : State) : (clearStatus s).ibuf = s.ibuf := rfl
@[simp] theorem clearStatus_etbuf (s : State) : (clearStatus s).etbuf = s.etbuf := rfl
@[simp] theorem clearStatus_dtbuf (s : State) : (clearStatus s).dtbuf = s.dtbuf := rfl
@[simp] theorem clearStatus_obuf (s : State) : (clearStatus s).obuf = s.obuf := rfl
@[simp] theorem clearStatus_resets (s : State) : (clearStatus s).resets = s.resets := rfl
@[simp] theorem clearStatus_host (s : State) : (clearStatus s).host = s.host := rfl
@[simp] theorem clearStatus_observed (s : State) : (clearStatus s).observed = s.observed := rfl
@[simp] theorem observe_state (v : Word) (s : State) : (observe v s).state = s.state := rfl
@[simp] theorem observe_lastOp (v : Word) (s : State) : (observe v s).lastOp = s.lastOp := rfl
@[simp] theorem observe_errCode (v : Word) (s : State) : (observe v s).errCode = s.errCode := rfl
@[simp] theorem observe_errInfo (v : Word) (s : State) : (observe v s).errInfo = s.errInfo := rfl
@[simp] theorem observe_encInLen (v : Word) (s : State) : (observe v s).encInLen = s.encInLen := rfl
@[simp] theorem observe_encTokCount (v : Word) (s : State) : (observe v s).encTokCount = s.encTokCount := rfl
@[simp] theorem observe_decTokLen (v : Word) (s : State) : (observe v s).decTokLen = s.decTokLen := rfl
@[simp] theorem observe_decOutLen (v : Word) (s : State) : (observe v s).decOutLen = s.decOutLen := rfl
@[simp] theorem observe_capIn (v : Word) (s : State) : (observe v s).capIn = s.capIn := rfl
@[simp] theorem observe_capTin (v : Word) (s : State) : (observe v s).capTin = s.capTin := rfl
@[simp] theorem observe_enc (v : Word) (s : State) : (observe v s).enc = s.enc := rfl
@[simp] theorem observe_dec (v : Word) (s : State) : (observe v s).dec = s.dec := rfl
@[simp] theorem observe_ibuf (v : Word) (s : State) : (observe v s).ibuf = s.ibuf := rfl
@[simp] theorem observe_etbuf (v : Word) (s : State) : (observe v s).etbuf = s.etbuf := rfl
@[simp] theorem observe_dtbuf (v : Word) (s : State) : (observe v s).dtbuf = s.dtbuf := rfl
@[simp] theorem observe_obuf (v : Word) (s : State) : (observe v s).obuf = s.obuf := rfl
@[simp] theorem observe_resets (v : Word) (s : State) : (observe v s).resets = s.resets := rfl
@[simp] theorem observe_host (v : Word) (s : State) : (observe v s).host = s.host := rfl
@[simp] theorem observe_observed (v : Word) (s : State) : (observe v s).observed = v :: s.observed := rfl
@[simp] theorem latchToken_state (off : Offset) (len : Length) (lit : Byte) (s : State) : (latchToken off len lit s).state = s.state := rfl
@[simp] theorem latchToken_lastOp (off : Offset) (len : Length) (lit : Byte) (s : State) : (latchToken off len lit s).lastOp = s.lastOp := rfl
@[simp] theorem latchToken_errCode (off : Offset) (len : Length) (lit : Byte) (s : State) : (latchToken off len lit s).errCode = s.errCode := rfl
@[simp] theorem latchToken_errInfo (off : Offset) (len : Length) (lit : Byte) (s : State) : (latchToken off len lit s).errInfo = s.errInfo := rfl
@[simp] theorem latchToken_encInLen (off : Offset) (len : Length) (lit : Byte) (s : State) : (latchToken off len lit s).encInLen = s.encInLen := rfl
@[simp] theorem latchToken_encTokCount (off : Offset) (len : Length) (lit : Byte) (s : State) : (latchToken off len lit s).encTokCount = s.encTokCount := rfl
@[simp] theorem latchToken_decTokLen (off : Offset) (len : Length) (lit : Byte) (s : State) : (latchToken off len lit s).decTokLen = s.decTokLen := rfl
@[simp] theorem latchToken_decOutLen (off : Offset) (len : Length) (lit : Byte) (s : State) : (latchToken off len lit s).decOutLen = s.decOutLen := rfl
@[simp] theorem latchToken_capIn (off : Offset) (len : Length) (lit : Byte) (s : State) : (latchToken off len lit s).capIn = s.capIn := rfl
@[simp] theorem latchToken_capTin (off : Offset) (len : Length) (lit : Byte) (s : State) : (latchToken off len lit s).capTin = s.capTin := rfl
@[simp] theorem latchToken_enc (off : Offset) (len : Length) (lit : Byte) (s : State) : (latchToken off len lit s).enc = s.enc := rfl
@[simp] theorem latchToken_dec (off : Offset) (len : Length) (lit : Byte) (s : State) : (latchToken off len lit s).dec = { s.dec with doff := off, dlen := len, dlit := lit, dk := 0, dphase := .check } := rfl
@[simp] theorem latchToken_ibuf (off : Offset) (len : Length) (lit : Byte) (s : State) : (latchToken off len lit s).ibuf = s.ibuf := rfl
@[simp] theorem latchToken_etbuf (off : Offset) (len : Length) (lit : Byte) (s : State) : (latchToken off len lit s).etbuf = s.etbuf := rfl
@[simp] theorem latchToken_dtbuf (off : Offset) (len : Length) (lit : Byte) (s : State) : (latchToken off len lit s).dtbuf = s.dtbuf := rfl
@[simp] theorem latchToken_obuf (off : Offset) (len : Length) (lit : Byte) (s : State) : (latchToken off len lit s).obuf = s.obuf := rfl
@[simp] theorem latchToken_resets (off : Offset) (len : Length) (lit : Byte) (s : State) : (latchToken off len lit s).resets = s.resets := rfl
@[simp] theorem latchToken_host (off : Offset) (len : Length) (lit : Byte) (s : State) : (latchToken off len lit s).host = s.host := rfl
@[simp] theorem latchToken_observed (off : Offset) (len : Length) (lit : Byte) (s : State) : (latchToken off len lit s).observed = s.observed := rfl
@[simp] theorem raise_bufMem (who : Raiser) (e : ErrCode) (info : Word) (s : State) (b : Buf) : bufMem (raise who e info s) b = bufMem s b := by cases who <;> cases b <;> rfl
@[simp] theorem raise_bufSize (who : Raiser) (e : ErrCode) (info : Word) (s : State) (b : Buf) : bufSize (raise who e info s) b = bufSize s b := by cases who <;> cases b <;> rfl
@[simp] theorem finish_bufMem (who : Raiser) (s : State) (b : Buf) : bufMem (finish who s) b = bufMem s b := by cases who <;> cases b <;> rfl
@[simp] theorem finish_bufSize (who : Raiser) (s : State) (b : Buf) : bufSize (finish who s) b = bufSize s b := by cases who <;> cases b <;> rfl
@[simp] theorem acceptStatus_bufMem (op : LastOp) (s : State) (b : Buf) : bufMem (acceptStatus op s) b = bufMem s b := by cases b <;> rfl
@[simp] theorem acceptStatus_bufSize (op : LastOp) (s : State) (b : Buf) : bufSize (acceptStatus op s) b = bufSize s b := by cases b <;> rfl
@[simp] theorem clearStatus_bufMem (s : State) (b : Buf) : bufMem (clearStatus s) b = bufMem s b := by cases b <;> rfl
@[simp] theorem clearStatus_bufSize (s : State) (b : Buf) : bufSize (clearStatus s) b = bufSize s b := by cases b <;> rfl
@[simp] theorem observe_bufMem (v : Word) (s : State) (b : Buf) : bufMem (observe v s) b = bufMem s b := by cases b <;> rfl
@[simp] theorem observe_bufSize (v : Word) (s : State) (b : Buf) : bufSize (observe v s) b = bufSize s b := by cases b <;> rfl
@[simp] theorem latchToken_bufMem (off : Offset) (len : Length) (lit : Byte) (s : State) (b : Buf) : bufMem (latchToken off len lit s) b = bufMem s b := by cases b <;> rfl
@[simp] theorem latchToken_bufSize (off : Offset) (len : Length) (lit : Byte) (s : State) (b : Buf) : bufSize (latchToken off len lit s) b = bufSize s b := by cases b <;> rfl

end Sys2Proof.Machine
end

