-- ==== Sys2Proof/Laws/Memory.lean ====
section
/-! SUPPORT. Memory: a read after a write, the canonical form, and the bytes of a state after a write. -/

namespace Sys2Proof.Machine

theorem readCell_writeCell_same (m : Memory) (i : Nat) (v : Byte) : readCell (writeCell m i v) i = some v := by
  induction m with
  | nil => simp [writeCell, readCell]
  | cons c m ih =>
    obtain ⟨a, b⟩ := c
    simp only [writeCell]
    split
    · simp [readCell]
    · split
      · simp [readCell]
      · rename_i h1 h2
        have h : a ≠ i := fun h => h2 h.symm
        simp [readCell, h, ih]

theorem readCell_writeCell_other (m : Memory) (i j : Nat) (v : Byte) (h : j ≠ i) :
    readCell (writeCell m i v) j = readCell m j := by
  induction m with
  | nil => simp [writeCell, readCell, h.symm]
  | cons c m ih =>
    obtain ⟨a, b⟩ := c
    simp only [writeCell]
    split
    · simp [readCell, h.symm]
    · split
      · rename_i h2
        subst h2
        simp [readCell, h.symm]
      · simp [readCell, ih]

theorem mem_writeCell {m : Memory} {i : Nat} {v : Byte} {c : Host.Cell} (h : c ∈ writeCell m i v) :
    c = (i, v) ∨ c ∈ m := by
  induction m with
  | nil => simpa [writeCell] using h
  | cons d m ih =>
    obtain ⟨a, b⟩ := d
    simp only [writeCell] at h
    split at h
    · simpa using h
    · split at h
      · rcases List.mem_cons.1 h with h | h
        · exact .inl h
        · exact .inr (List.mem_cons_of_mem _ h)
      · rcases List.mem_cons.1 h with h | h
        · exact .inr (h ▸ List.mem_cons_self)
        · exact (ih h).imp id (List.mem_cons_of_mem _)

/-- Every memory operation keeps the canonical form. -/
theorem writeCell_wf (m : Memory) (i : Nat) (v : Byte) (h : Memory.wf m = true) : Memory.wf (writeCell m i v) = true := by
  induction m with
  | nil => rfl
  | cons c m ih =>
    obtain ⟨a, b⟩ := c
    simp only [Memory.wf, Bool.and_eq_true, List.all_eq_true, decide_eq_true_eq] at h
    simp only [writeCell]
    split
    · rename_i h1
      simp only [Memory.wf, Bool.and_eq_true, List.all_eq_true, decide_eq_true_eq, List.mem_cons]
      refine ⟨?_, h⟩
      rintro c (rfl | hc)
      · exact h1
      · exact lt_trans h1 (h.1 c hc)
    · split
      · rename_i h2
        subst h2
        simpa only [Memory.wf, Bool.and_eq_true, List.all_eq_true, decide_eq_true_eq] using h
      · simp only [Memory.wf, Bool.and_eq_true, List.all_eq_true, decide_eq_true_eq]
        refine ⟨fun c hc => ?_, ih h.2⟩
        rcases mem_writeCell hc with rfl | hc
        · dsimp; omega
        · exact h.1 c hc

/-- The memory after reset is canonical. -/
theorem reset_buffers_wf (b : Buf) : Memory.wf (bufMem State.reset b) = true := by cases b <;> rfl

theorem byteAt_putByte_same (s : State) (b : Buf) (i : Nat) (v : Byte) : byteAt (putByte s b i v) b i = v := by
  simp [byteAt, putByte_bufMem_same, readCell_writeCell_same]

theorem byteAt_putByte_index (s : State) (b : Buf) (i j : Nat) (v : Byte) (h : j ≠ i) :
    byteAt (putByte s b i v) b j = byteAt s b j := by
  simp [byteAt, putByte_bufMem_same, readCell_writeCell_other _ _ _ _ h]

theorem byteAt_putByte_buffer (s : State) (b c : Buf) (i j : Nat) (v : Byte) (h : c ≠ b) :
    byteAt (putByte s b i v) c j = byteAt s c j := by
  simp [byteAt, putByte_bufMem_other _ _ _ _ _ h]

/-- A byte depends only on its buffer and on the draw of the last reset. -/
theorem byteAt_congr {s t : State} {b : Buf} (hm : bufMem t b = bufMem s b) (hr : t.resets = s.resets) (i : Nat) :
    byteAt t b i = byteAt s b i := by simp [byteAt, hm, hr]

theorem putByte_buffers {s : State} {b : Buf} {i : Nat} {v : Byte} (h : BuffersLegal s) (hi : i < bufSize s b) :
    BuffersLegal (putByte s b i v) := by
  intro c
  rw [putByte_bufSize]
  by_cases hc : c = b
  · subst hc
    rw [putByte_bufMem_same]
    refine ⟨writeCell_wf _ _ _ (h c).1, fun d hd => ?_⟩
    rcases mem_writeCell hd with rfl | hd
    · exact hi
    · exact (h c).2 d hd
  · rw [putByte_bufMem_other _ _ _ _ _ hc]
    exact h c

end Sys2Proof.Machine
end

