-- ==== Sys2Proof/Laws/Ops.lean ====
section
/-! SUPPORT. What each shared operation can do, said once: the callers' proofs cite these and unfold nothing. -/

namespace Sys2Proof.Machine

/-! ### Sequencing -/

@[simp] theorem andThen_next (s : State) (f : State → Result) : andThen (.next s) f = f s := rfl
@[simp] theorem andThen_fault (r : Fault) (f : State → Result) : andThen (.fault r) f = .fault r := rfl
@[simp] theorem andThen_refused (r : Refusal) (f : State → Result) : andThen (.refused r) f = .refused r := rfl

theorem andThen_eq_next {o : Result} {f : State → Result} {t : State} (h : andThen o f = .next t) :
    ∃ s, o = .next s ∧ f s = .next t := by
  cases o with
  | next s => exact ⟨s, rfl, h⟩
  | fault r => cases h
  | refused r => cases h

theorem andThen_assoc (o : Result) (f g : State → Result) :
    andThen (andThen o f) g = andThen o fun s => andThen (f s) g := by cases o <;> rfl

/-! ### An engine's byte accesses -/

theorem memRead_inside {b : Buf} {i : Nat} {s : State} (f : Byte → Result) (h : i < bufSize s b) :
    memRead b i s f = f (byteAt s b i) := by simp [memRead, h]

theorem memRead_eq_next {b : Buf} {i : Nat} {s t : State} {f : Byte → Result} (h : memRead b i s f = .next t) :
    i < bufSize s b ∧ f (byteAt s b i) = .next t := by
  unfold memRead at h
  split at h
  · exact ⟨‹_›, h⟩
  · cases h

theorem memWrite_inside {b : Buf} {i : Nat} {s : State} (v : Byte) (h : i < bufSize s b) :
    memWrite b i v s = .next (putByte s b i v) := by simp [memWrite, h]

theorem memWrite_eq_next {b : Buf} {i : Nat} {v : Byte} {s t : State} (h : memWrite b i v s = .next t) :
    i < bufSize s b ∧ t = putByte s b i v := by
  unfold memWrite at h
  split at h
  · exact ⟨‹_›, by cases h; rfl⟩
  · cases h

/-! ### The decoder's appends -/

/-- The state after one byte is appended to the output (R166, R167). -/
def appended (b : Byte) (s : State) : State :=
  { putByte s .obuf s.dec.osize.toNat b with dec := { s.dec with osize := s.dec.osize + 1 } }

theorem appendByte_inside {s : State} (b : Byte) (h : s.dec.osize.toNat < 4 * s.capTin) :
    appendByte b s = .next (appended b s) := by
  simp [appendByte, memWrite, bufSize, h, appended]

theorem appendByte_eq_next {s t : State} {b : Byte} (h : appendByte b s = .next t) :
    s.dec.osize.toNat < 4 * s.capTin ∧ t = appended b s := by
  obtain ⟨u, hu, ht⟩ := andThen_eq_next h
  obtain ⟨hi, rfl⟩ := memWrite_eq_next hu
  refine ⟨hi, ?_⟩
  simpa [appended] using ht.symm

/-- D_COPY, when both accesses are inside OBUF. -/
theorem decCopy_inside {s : State} (h : s.dec.osize.toNat < 4 * s.capTin) :
    decCopy s = .next (countCopied (appended (byteAt s .obuf (copySource s)) s)) := by
  have hr : copySource s < bufSize s .obuf := by simp only [copySource, bufSize]; omega
  simp [decCopy, memRead_inside _ hr, appendByte_inside _ h]

theorem decCopy_eq_next {s t : State} (h : decCopy s = .next t) :
    s.dec.osize.toNat < 4 * s.capTin ∧ t = countCopied (appended (byteAt s .obuf (copySource s)) s) := by
  obtain ⟨-, h⟩ := memRead_eq_next h
  obtain ⟨u, hu, ht⟩ := andThen_eq_next h
  obtain ⟨hi, rfl⟩ := appendByte_eq_next hu
  exact ⟨hi, by cases ht; rfl⟩

theorem decLit_inside {s : State} (h : s.dec.osize.toNat < 4 * s.capTin) :
    decLit s = .next (nextToken (appended s.dec.dlit s)) := by
  simp [decLit, appendByte_inside _ h]

theorem decLit_eq_next {s t : State} (h : decLit s = .next t) :
    s.dec.osize.toNat < 4 * s.capTin ∧ t = nextToken (appended s.dec.dlit s) := by
  obtain ⟨u, hu, ht⟩ := andThen_eq_next h
  obtain ⟨hi, rfl⟩ := appendByte_eq_next hu
  exact ⟨hi, by cases ht; rfl⟩

/-! ### Commands -/

theorem unlessBusy_busy {s : State} (f : Result) (h : s.state = .busy) : unlessBusy s f = .next s := by
  simp [unlessBusy, h]

theorem unlessBusy_free {s : State} (f : Result) (h : s.state ≠ .busy) : unlessBusy s f = f := by
  simp [unlessBusy, h]

/-- The state after all but the status of an accepted START_ENCODE, by whether the input is empty (R134). -/
theorem startEncoder_cases (s : State) :
    (s.encInLen = 0 ∧ (startEncoder s).state = .done ∧ (startEncoder s).encTokCount = 0) ∨
    (s.encInLen ≠ 0 ∧ (startEncoder s).state = s.state ∧ (startEncoder s).enc.ephase = .search) := by
  unfold startEncoder
  split
  · exact .inl ⟨‹_›, rfl, rfl⟩
  · exact .inr ⟨‹_›, rfl, rfl⟩

/-! ### The host's accesses -/

theorem atRegister_word {off : Nat} {r : Reg} (f : Reg → Result) (ha : off % 4 = 0) (hr : regAt off = some r) :
    atRegister off 4 f = f r := by simp [atRegister, wordAccess, ha, hr]

theorem atRegister_eq_next {off width : Nat} {f : Reg → Result} {t : State} (h : atRegister off width f = .next t) :
    ∃ r, width = 4 ∧ off % 4 = 0 ∧ regAt off = some r ∧ f r = .next t := by
  unfold atRegister at h
  split at h
  · rename_i ha
    simp only [wordAccess, Bool.and_eq_true, beq_iff_eq] at ha
    split at h
    · exact ⟨_, ha.1, ha.2, ‹_›, h⟩
    · cases h
  · cases h

theorem insideBuffer_eq_next {b : Buf} {i : Nat} {s t : State} {r : Result} (h : insideBuffer b i s r = .next t) :
    i < bufSize s b ∧ r = .next t := by
  unfold insideBuffer at h
  split at h
  · exact ⟨‹_›, h⟩
  · cases h

end Sys2Proof.Machine
end

