-- ==== Sys2Proof/Laws/Encoder.lean ====
section
/-! SUPPORT. What each phase body of the encoder can do (41_encoder.md R134). -/

namespace Sys2Proof.Machine

theorem EncoderFrame.refl (s : State) : EncoderFrame s s := by constructor <;> rfl

theorem encSearch_frame (s : State) : EncoderFrame s (encSearch s) := by constructor <;> rfl
theorem encCountMatch_frame (s : State) : EncoderFrame s (encCountMatch s) := by constructor <;> rfl
theorem encNextCandidate_frame (s : State) : EncoderFrame s (encNextCandidate s) := by constructor <;> rfl
theorem encClamp_frame (s : State) : EncoderFrame s (encClamp s) := by constructor <;> rfl

/-! ### The computed fields, as natural numbers -/

theorem windowStart_toNat (pos : Word) : (windowStart pos).toNat = pos.toNat - 31 := by
  have h := pos.isLt
  show (pos.toNat - 31) % 2 ^ 32 = _
  omega

theorem clampedLen_toNat {s : State} (h : s.enc.pos.toNat < s.enc.n.toNat) :
    (clampedLen s).toNat =
      if s.enc.n.toNat ≤ s.enc.pos.toNat + s.enc.bestLen.toNat then s.enc.n.toNat - s.enc.pos.toNat - 1
      else s.enc.bestLen.toNat := by
  have h1 : (s.enc.n - s.enc.pos).toNat = s.enc.n.toNat - s.enc.pos.toNat := toNat_sub_inside (by omega)
  have h2 : (1 : Word).toNat = 1 := rfl
  unfold clampedLen
  split
  · rw [toNat_sub_inside (by omega), h1, h2]
  · rfl

theorem tokenOffset_toNat {s : State} (h : s.enc.bestS.toNat ≤ s.enc.pos.toNat) :
    (tokenOffset s).toNat = if (clampedLen s).toNat = 0 then 0 else s.enc.pos.toNat - s.enc.bestS.toNat := by
  unfold tokenOffset
  by_cases hz : clampedLen s = 0
  · rw [if_pos hz, if_pos (toNat_eq_zero.2 hz)]
    rfl
  · rw [if_neg hz, if_neg (fun h' => hz (toNat_eq_zero.1 h')), toNat_sub_inside h]

/-! ### The phase bodies -/

/-- E_SCAN counts an equal byte or ends the candidate. -/
theorem encScan_eq_next {s t : State} (h : encScan s = .next t) : t = encCountMatch s ∨ t = encNextCandidate s := by
  unfold encScan at h
  split at h
  · obtain ⟨-, h⟩ := memRead_eq_next h
    obtain ⟨-, h⟩ := memRead_eq_next h
    split at h <;> cases h
    · exact .inl rfl
    · exact .inr rfl
  · cases h
    exact .inr rfl

/-- E_SCAN in a running encode: the two reads are inside the input, and the byte compare decides (R123). -/
theorem encScan_inside {s : State} (hn : s.enc.n.toNat ≤ s.capIn) (hs : s.enc.s.toNat ≤ s.enc.pos.toNat) :
    encScan s = .next
      (if s.enc.k.toNat < 7 ∧ s.enc.pos.toNat + s.enc.k.toNat < s.enc.n.toNat ∧
          byteAt s .ibuf (s.enc.s.toNat + s.enc.k.toNat) = byteAt s .ibuf (s.enc.pos.toNat + s.enc.k.toNat)
       then encCountMatch s else encNextCandidate s) := by
  unfold encScan
  simp only [Config.maxMatch]
  by_cases h : s.enc.k.toNat < 7 ∧ s.enc.pos.toNat + s.enc.k.toNat < s.enc.n.toNat
  · have h1 : s.enc.s.toNat + s.enc.k.toNat < bufSize s .ibuf := by show _ < s.capIn; omega
    have h2 : s.enc.pos.toNat + s.enc.k.toNat < bufSize s .ibuf := by show _ < s.capIn; omega
    rw [if_pos h, memRead_inside _ h1, memRead_inside _ h2]
    simp only [h.1, h.2, true_and]
  · rw [if_neg h, if_neg (fun h' => h ⟨h'.1, h'.2.1⟩)]

/-- E_VALIDATE raises DOMAIN or goes on to E_EMIT (R128). -/
theorem encValidate_cases (s : State) :
    (encValidate s = raise .encoder .domain s.enc.pos s ∧ (31 < s.enc.off.toNat ∨ 7 < s.enc.len.toNat)) ∨
    (encValidate s = { s with enc := { s.enc with ephase := .emit } } ∧
      s.enc.off.toNat ≤ 31 ∧ s.enc.len.toNat ≤ 7) := by
  unfold encValidate pack
  simp only [Config.windowSize, Config.maxMatch]
  by_cases h : 31 < s.enc.off.toNat ∨ 7 < s.enc.len.toNat
  · rw [if_pos h]
    exact .inl ⟨rfl, h⟩
  · rw [if_neg h]
    exact .inr ⟨rfl, by omega, by omega⟩

theorem encValidate_frame (s : State) : EncoderFrame s (encValidate s) := by
  rcases encValidate_cases s with ⟨e, -⟩ | ⟨e, -⟩ <;> rw [e] <;> constructor <;> rfl

/-- The state after the record of the current token is written (R130). -/
def emitted (s : State) : State :=
  { putByte (putByte s .etbuf (2 * s.enc.tcount.toNat) (packedByte s.enc.off.toNat s.enc.len.toNat))
      .etbuf (2 * s.enc.tcount.toNat + 1) (byteAt s .ibuf (s.enc.pos.toNat + s.enc.len.toNat)) with
    enc := { s.enc with tcount := s.enc.tcount + 1, ephase := .advance } }

theorem emitted_frame (s : State) : EncoderFrame s (emitted s) := by constructor <;> rfl

theorem byteAt_emitted (s : State) (i : Nat) :
    byteAt (emitted s) .etbuf i =
      if i = 2 * s.enc.tcount.toNat + 1 then byteAt s .ibuf (s.enc.pos.toNat + s.enc.len.toNat)
      else if i = 2 * s.enc.tcount.toNat then packedByte s.enc.off.toNat s.enc.len.toNat
      else byteAt s .etbuf i := by
  have e : byteAt (emitted s) .etbuf i =
      byteAt (putByte (putByte s .etbuf (2 * s.enc.tcount.toNat) (packedByte s.enc.off.toNat s.enc.len.toNat))
        .etbuf (2 * s.enc.tcount.toNat + 1) (byteAt s .ibuf (s.enc.pos.toNat + s.enc.len.toNat))) .etbuf i :=
    byteAt_congr rfl rfl i
  rw [e]
  split
  · rename_i h
    rw [h, byteAt_putByte_same]
  · rename_i h
    rw [byteAt_putByte_index _ _ _ _ _ h]
    split
    · rename_i h'
      rw [h', byteAt_putByte_same]
    · rename_i h'
      rw [byteAt_putByte_index _ _ _ _ _ h']

theorem encEmit_eq_next {s t : State} (h : encEmit s = .next t) :
    s.enc.tcount.toNat < s.capIn ∧ s.enc.pos.toNat + s.enc.len.toNat < s.capIn ∧ t = emitted s := by
  obtain ⟨u, hu, h⟩ := andThen_eq_next h
  obtain ⟨-, rfl⟩ := memWrite_eq_next hu
  obtain ⟨hr, h⟩ := memRead_eq_next h
  obtain ⟨v, hv, h⟩ := andThen_eq_next h
  obtain ⟨hw, rfl⟩ := memWrite_eq_next hv
  rw [putByte_bufSize] at hr hw
  simp only [bufSize] at hr hw
  refine ⟨by omega, hr, ?_⟩
  rw [byteAt_putByte_buffer _ _ _ _ _ _ (by decide)] at h
  cases h
  rfl

theorem encEmit_inside {s : State} (h : s.enc.tcount.toNat < s.capIn)
    (hr : s.enc.pos.toNat + s.enc.len.toNat < s.capIn) : encEmit s = .next (emitted s) := by
  have h1 : 2 * s.enc.tcount.toNat < bufSize s .etbuf := by show _ < 2 * s.capIn; omega
  have h2 : s.enc.pos.toNat + s.enc.len.toNat <
      bufSize (putByte s .etbuf (2 * s.enc.tcount.toNat) (packedByte s.enc.off.toNat s.enc.len.toNat)) .ibuf := by
    rw [putByte_bufSize]
    exact hr
  have h3 : 2 * s.enc.tcount.toNat + 1 <
      bufSize (putByte s .etbuf (2 * s.enc.tcount.toNat) (packedByte s.enc.off.toNat s.enc.len.toNat)) .etbuf := by
    rw [putByte_bufSize]
    show _ < 2 * s.capIn
    omega
  unfold encEmit
  rw [memWrite_inside _ h1, andThen_next, memRead_inside _ h2, memWrite_inside _ h3, andThen_next,
    byteAt_putByte_buffer _ _ _ _ _ _ (by decide)]
  rfl

/-- The cursor after a token (R131). -/
def advanced (s : State) : State := { s with enc := { s.enc with pos := s.enc.pos + s.enc.len + 1 } }

theorem advanced_pos {s : State} (h : s.enc.pos.toNat + s.enc.len.toNat + 1 < 2 ^ 32) :
    (advanced s).enc.pos.toNat = s.enc.pos.toNat + s.enc.len.toNat + 1 := by
  have h1 : (s.enc.pos + s.enc.len).toNat = s.enc.pos.toNat + s.enc.len.toNat := toNat_add_inside (by omega)
  show (s.enc.pos + s.enc.len + 1).toNat = _
  rw [toNat_add_one_inside (by omega), h1]

/-- E_ADVANCE starts the next search or ends the operation (R132). -/
theorem encAdvance_cases (s : State) :
    (encAdvance s = { advanced s with enc := { (advanced s).enc with ephase := .search } } ∧
      (advanced s).enc.pos.toNat < s.enc.n.toNat) ∨
    (encAdvance s = finish .encoder (advanced s) ∧ ¬ (advanced s).enc.pos.toNat < s.enc.n.toNat) := by
  simp only [encAdvance]
  split
  · rename_i h
    exact .inl ⟨rfl, h⟩
  · rename_i h
    exact .inr ⟨rfl, h⟩

theorem encAdvance_frame (s : State) : EncoderFrame s (encAdvance s) := by
  rcases encAdvance_cases s with ⟨e, -⟩ | ⟨e, -⟩ <;> rw [e] <;> constructor <;> rfl

end Sys2Proof.Machine
end

