-- ==== Sys2Proof/Laws/PerInstr.lean ====
section
/-! SUPPORT. A family of statements about every instruction as syntax: its encoding matches its row of
spec/opcode_table.json (mask, match and constraint). -/

namespace Sys2Proof.Laws.EncodingRow

/-- TOK16 of a token record (30_encoding.md R84). -/
def tok16 (p lit : Byte) : BitVec 16 := p ++ lit

/-- A token word that satisfies the mask and match of a row, with the literal as written. -/
def MatchesToken (w : CodeWord) (lit : Byte) (row : BitVec 16 → Prop) : Prop :=
  match w with
  | .token p l => l = lit ∧ row (tok16 p l)
  | .command _ => False

/-- The encoding of a well-formed instruction satisfies its own row of the table. -/
def Statement (i : Instr) : Prop :=
  i.wf = true →
  match i with
  | .lit0 lit => MatchesToken (encode (.lit0 lit)) lit fun w => w &&& 0xFF00 = 0
  | .lito off lit => MatchesToken (encode (.lito off lit)) lit fun w => w &&& 0x0700 = 0 ∧ w &&& 0xF800 ≠ 0
  | .cpy off len lit => MatchesToken (encode (.cpy off len lit)) lit fun w => w &&& 0xF800 ≠ 0 ∧ w &&& 0x0700 ≠ 0
  | .bad0 len lit => MatchesToken (encode (.bad0 len lit)) lit fun w => w &&& 0xF800 = 0 ∧ w &&& 0x0700 ≠ 0
  | .startEncode => encode .startEncode = .command 0x00000001
  | .startDecode => encode .startDecode = .command 0x00000002
  | .clear => encode .clear = .command 0x00000003
  | .illegalCmd v => encode (.illegalCmd v) = .command v ∧ v ≠ 1 ∧ v ≠ 2 ∧ v ≠ 3

/-- A bit of TOK16 as a bit of its two bytes. -/
theorem tok16_masks (p lit : Byte) :
    (tok16 p lit &&& 0xFF00 = 0 ↔ p = 0) ∧
    (tok16 p lit &&& 0xF800 = 0 ↔ offsetField p = 0) ∧
    (tok16 p lit &&& 0x0700 = 0 ↔ lengthField p = 0) := by
  have high : ∀ m : Byte, tok16 p lit &&& (m ++ (0 : Byte)) = (p &&& m) ++ (0 : Byte) := by
    intro m
    rw [tok16, BitVec.and_append]
    simp
  have zero : ∀ q : Byte, (q ++ (0 : Byte) : BitVec 16) = 0 ↔ q = 0 := by decide
  have fields : ∀ q : Byte, (q &&& 0xFF = 0 ↔ q = 0) ∧ (q &&& 0xF8 = 0 ↔ offsetField q = 0) ∧
      (q &&& 0x07 = 0 ↔ lengthField q = 0) := by decide
  have h1 := high 0xFF
  have h2 := high 0xF8
  have h3 := high 0x07
  refine ⟨?_, ?_, ?_⟩
  · rw [← (fields p).1, ← zero]; exact iff_of_eq (congrArg (· = 0) h1)
  · rw [← (fields p).2.1, ← zero]; exact iff_of_eq (congrArg (· = 0) h2)
  · rw [← (fields p).2.2, ← zero]; exact iff_of_eq (congrArg (· = 0) h3)

theorem lit0 (lit : Byte) : Statement (.lit0 lit) := fun _ =>
  ⟨rfl, (tok16_masks _ _).1.2 rfl⟩

theorem lito (off : Offset) (lit : Byte) : Statement (.lito off lit) := fun h => by
  have hl : lengthField (packedByte off.toNat 0) = 0 := lengthField_packedByte off 0
  have ho : offsetField (packedByte off.toNat 0) = off := offsetField_packedByte off 0
  refine ⟨rfl, (tok16_masks _ _).2.2.2 hl, fun hz => ?_⟩
  have h0 : off = 0 := ho ▸ (tok16_masks _ _).2.1.1 hz
  simp [Instr.wf, offsetOk, h0] at h

theorem cpy (off : Offset) (len : Length) (lit : Byte) : Statement (.cpy off len lit) := fun h => by
  have hl := lengthField_packedByte off len
  have ho := offsetField_packedByte off len
  simp only [Instr.wf, offsetOk, lengthOk, Bool.and_eq_true, bne_iff_ne] at h
  refine ⟨rfl, fun hz => ?_, fun hz => ?_⟩
  · exact h.1 (ho ▸ (tok16_masks _ _).2.1.1 hz)
  · exact h.2 (hl ▸ (tok16_masks _ _).2.2.1 hz)

theorem bad0 (len : Length) (lit : Byte) : Statement (.bad0 len lit) := fun h => by
  have hl : lengthField (packedByte 0 len.toNat) = len := lengthField_packedByte 0 len
  have ho : offsetField (packedByte 0 len.toNat) = 0 := offsetField_packedByte 0 len
  simp only [Instr.wf, lengthOk, bne_iff_ne] at h
  refine ⟨rfl, (tok16_masks _ _).2.1.2 ho, fun hz => ?_⟩
  exact h (hl ▸ (tok16_masks _ _).2.2.1 hz)

theorem startEncode : Statement .startEncode := fun _ => rfl

theorem startDecode : Statement .startDecode := fun _ => rfl

theorem clear : Statement .clear := fun _ => rfl

theorem illegalCmd (v : Word) : Statement (.illegalCmd v) := fun h => by
  simp only [Instr.wf, commandOk, Bool.and_eq_true, bne_iff_ne] at h
  exact ⟨rfl, h.1.1, h.1.2, h.2⟩

end Sys2Proof.Laws.EncodingRow
end

