-- ==== Sys2Proof/Laws/Runs.lean ====
section
/-! SUPPORT. Runs of many steps: how they split, and the one induction behind every invariant of a run. -/

namespace Sys2Proof.Machine

theorem run_zero (s : State) : Sys2Proof.core.run 0 s = .next s := rfl

/-- A first step that answers a next state, then the rest of the run. -/
theorem run_succ {s t : State} (k : Nat) (h : step s = .next t) :
    Sys2Proof.core.run (k + 1) s = Sys2Proof.core.run k t := by
  simp only [Host.Core.run]
  rw [show Sys2Proof.core.step s = .next t from h]

/-- A run in two parts. -/
theorem run_add {s t : State} (k m : Nat) (h : Sys2Proof.core.run k s = .next t) :
    Sys2Proof.core.run (k + m) s = Sys2Proof.core.run m t := by
  induction k generalizing s with
  | zero => cases h; rw [Nat.zero_add]
  | succ k ih =>
    rw [Nat.succ_add]
    cases hs : step s with
    | next u =>
      rw [run_succ k hs] at h
      rw [run_succ (k + m) hs]
      exact ih h
    | fault r =>
      simp only [Host.Core.run] at h
      rw [show Sys2Proof.core.step s = .fault r from hs] at h
      cases h
    | refused r =>
      simp only [Host.Core.run] at h
      rw [show Sys2Proof.core.step s = .refused r from hs] at h
      cases h

/-- What every step keeps, every run keeps. -/
theorem run_keeps {P : State → Prop} (hP : ∀ s t, P s → step s = .next t → P t) (k : Nat) {s t : State} (h0 : P s)
    (h : Sys2Proof.core.run k s = .next t) : P t := by
  induction k generalizing s with
  | zero => cases h; exact h0
  | succ k ih =>
    cases hs : step s with
    | next u => exact ih (hP s u h0 hs) (run_succ k hs ▸ h)
    | fault r =>
      simp only [Host.Core.run] at h
      rw [show Sys2Proof.core.step s = .fault r from hs] at h
      cases h
    | refused r =>
      simp only [Host.Core.run] at h
      rw [show Sys2Proof.core.step s = .refused r from hs] at h
      cases h

end Sys2Proof.Machine
end

