-- ==== Sys2Proof/Laws/Tokens.lean ====
section
/-! SUPPORT. What the decoder's shared bodies do: the append, the copy replay, the literal and the failed checks. The
tokens' proofs cite these and unfold nothing below them. -/

namespace Sys2Proof.Machine

/-! ### Small lemmas -/

@[simp] theorem setDPhase_dec (p : DPhase) (s : State) : (setDPhase p s).dec = { s.dec with dphase := p } := rfl
@[simp] theorem setDPhase_capTin (p : DPhase) (s : State) : (setDPhase p s).capTin = s.capTin := rfl
@[simp] theorem setDPhase_byteAt (p : DPhase) (s : State) (b : Buf) (i : Nat) :
    byteAt (setDPhase p s) b i = byteAt s b i := byteAt_congr (by cases b <;> rfl) rfl i
@[simp] theorem latchToken_byteAt (off : Offset) (len : Length) (lit : Byte) (s : State) (b : Buf) (i : Nat) :
    byteAt (latchToken off len lit s) b i = byteAt s b i := byteAt_congr (by cases b <;> rfl) rfl i

@[simp] theorem appended_dec (b : Byte) (s : State) :
    (appended b s).dec = { s.dec with osize := s.dec.osize + 1 } := rfl
@[simp] theorem appended_capTin (b : Byte) (s : State) : (appended b s).capTin = s.capTin := rfl
@[simp] theorem countCopied_capTin (s : State) : (countCopied s).capTin = s.capTin := rfl
@[simp] theorem countCopied_byteAt (s : State) (b : Buf) (i : Nat) :
    byteAt (countCopied s) b i = byteAt s b i := byteAt_congr (by cases b <;> rfl) rfl i

theorem byteAt_appended_new (b : Byte) (s : State) : byteAt (appended b s) .obuf s.dec.osize.toNat = b :=
  (byteAt_congr (s := putByte s .obuf s.dec.osize.toNat b) rfl rfl _).trans (byteAt_putByte_same _ _ _ _)

theorem byteAt_appended_old (b : Byte) (s : State) {i : Nat} (h : i ≠ s.dec.osize.toNat) :
    byteAt (appended b s) .obuf i = byteAt s .obuf i :=
  (byteAt_congr (s := putByte s .obuf s.dec.osize.toNat b) rfl rfl _).trans (byteAt_putByte_index _ _ _ _ _ h)

/-- osize does not wrap while it is inside OBUF. -/
theorem osize_succ {s : State} (hc : CapsLegal s) (h : s.dec.osize.toNat < 4 * s.capTin) :
    (s.dec.osize + 1).toNat = s.dec.osize.toNat + 1 := by
  have := hc.tinHigh
  exact toNat_add_one_inside (by omega)

/-! ### Frames -/

theorem TokenFrame.refl (s : State) : TokenFrame s s := by constructor <;> rfl

theorem TokenFrame.trans {s t u : State} (h : TokenFrame s t) (k : TokenFrame t u) : TokenFrame s u :=
  ⟨k.1.trans h.1, k.2.trans h.2, k.3.trans h.3, k.4.trans h.4, k.5.trans h.5, k.6.trans h.6, k.7.trans h.7,
    k.8.trans h.8, k.9.trans h.9, k.10.trans h.10, k.11.trans h.11, k.12.trans h.12, k.13.trans h.13, k.14.trans h.14⟩

theorem TokenFrame.caps {s t : State} (h : TokenFrame s t) (hc : CapsLegal s) : CapsLegal t := by
  obtain ⟨a, b, c, d, e⟩ := hc
  exact ⟨by rwa [h.capIn], by rwa [h.capIn], by rwa [h.capTin], by rwa [h.capTin], by rwa [h.capTin]⟩

theorem latchToken_frame (off : Offset) (len : Length) (lit : Byte) (s : State) :
    TokenFrame s (latchToken off len lit s) := by constructor <;> rfl
theorem setDPhase_frame (p : DPhase) (s : State) : TokenFrame s (setDPhase p s) := by constructor <;> rfl
theorem appended_frame (b : Byte) (s : State) : TokenFrame s (appended b s) := by constructor <;> rfl
theorem countCopied_frame (s : State) : TokenFrame s (countCopied s) := by constructor <;> rfl
theorem raiseCorrupt_frame (s : State) : TokenFrame s (raiseCorrupt s) := by constructor <;> rfl
theorem raiseCorrupt_corrupt (s : State) : TokenCorrupt s (raiseCorrupt s) := by constructor <;> rfl

/-- The advance touches nothing of the token's data. -/
theorem nextToken_data (s : State) :
    TokenFrame s (nextToken s) ∧ (nextToken s).obuf = s.obuf ∧ (nextToken s).dec.osize = s.dec.osize ∧
    (nextToken s).dec.doff = s.dec.doff ∧ (nextToken s).dec.dlen = s.dec.dlen ∧
    (nextToken s).dec.dlit = s.dec.dlit ∧ (nextToken s).dec.dk = s.dec.dk := by
  simp only [nextToken]
  split <;> refine ⟨by constructor <;> rfl, rfl, rfl, rfl, rfl, rfl, rfl⟩

theorem nextToken_completes (s : State) : TokenCompletes s (nextToken s) := by
  simp only [nextToken]
  split
  · rename_i h
    exact ⟨rfl, rfl, rfl, fun _ => ⟨rfl, rfl, rfl⟩, fun h' => absurd h h'⟩
  · rename_i h
    exact ⟨rfl, rfl, rfl, fun h' => absurd h' h, fun _ => ⟨rfl, rfl⟩⟩

/-! ### The literal and the copy -/

/-- D_LIT with room in OBUF: the literal is appended and the token completes (R167, R168). -/
theorem decLit_spec {s : State} (hc : CapsLegal s) (h : s.dec.osize.toNat < 4 * s.capTin) :
    ∃ t, decLit s = .next t ∧ TokenFrame s t ∧ TokenCompletes s t ∧
      t.dec.osize.toNat = s.dec.osize.toNat + 1 ∧ t.dec.doff = s.dec.doff ∧ t.dec.dlen = s.dec.dlen ∧
      t.dec.dlit = s.dec.dlit ∧ t.dec.dk = s.dec.dk ∧ byteAt t .obuf s.dec.osize.toNat = s.dec.dlit ∧
      ∀ i, i ≠ s.dec.osize.toNat → byteAt t .obuf i = byteAt s .obuf i := by
  obtain ⟨f, ho, hos, h1, h2, h3, h4⟩ := nextToken_data (appended s.dec.dlit s)
  have hb : ∀ i, byteAt (nextToken (appended s.dec.dlit s)) .obuf i = byteAt (appended s.dec.dlit s) .obuf i :=
    byteAt_congr ho f.resets
  have c := nextToken_completes (appended s.dec.dlit s)
  refine ⟨_, decLit_inside h, (appended_frame _ _).trans f, ⟨c.1, c.2, c.3, c.4, c.5⟩, ?_, h1, h2, h3, h4, ?_, ?_⟩
  · rw [hos]
    exact osize_succ hc h
  · rw [hb, byteAt_appended_new]
  · intro i hi
    rw [hb, byteAt_appended_old _ _ hi]

/-- The copy replay of `k` bytes with history and room (R166): what it writes, and what it leaves alone. -/
structure CopyDone (k : Nat) (s t : State) : Prop where
  frame : TokenFrame s t
  state : t.state = s.state
  errCode : t.errCode = s.errCode
  errInfo : t.errInfo = s.errInfo
  decOutLen : t.decOutLen = s.decOutLen
  tidx : t.dec.tidx = s.dec.tidx
  osize : t.dec.osize.toNat = s.dec.osize.toNat + k
  doff : t.dec.doff = s.dec.doff
  dlen : t.dec.dlen = s.dec.dlen
  dlit : t.dec.dlit = s.dec.dlit
  dk : t.dec.dk.toNat = s.dec.dk.toNat + k
  dphase : t.dec.dphase = if k = 0 then s.dec.dphase else if t.dec.dk = t.dec.dlen then .lit else .copy
  replayed : ∀ j, j < k →
    byteAt t .obuf (s.dec.osize.toNat + j) = byteAt t .obuf (s.dec.osize.toNat + j - s.dec.doff.toNat)
  kept : ∀ i, i < s.dec.osize.toNat ∨ s.dec.osize.toNat + k ≤ i → byteAt t .obuf i = byteAt s .obuf i

theorem copyRun_spec (k : Nat) : ∀ s : State, CapsLegal s → 0 < s.dec.doff.toNat →
    s.dec.doff.toNat ≤ s.dec.osize.toNat → s.dec.osize.toNat + k ≤ 4 * s.capTin → s.dec.dk.toNat + k ≤ 7 →
    ∃ t, copyRun k s = .next t ∧ CopyDone k s t := by
  induction k with
  | zero =>
    intro s _ _ _ _ _
    exact ⟨s, rfl, .refl s, rfl, rfl, rfl, rfl, rfl, rfl, rfl, rfl, rfl, rfl, rfl, by simp, fun _ _ => rfl⟩
  | succ k ih =>
    intro s hc hpos hist room hk
    have hin : s.dec.osize.toNat < 4 * s.capTin := by omega
    let b := byteAt s .obuf (copySource s)
    let u := countCopied (appended b s)
    have fu : TokenFrame s u := (appended_frame b s).trans (countCopied_frame _)
    have huo : u.dec.osize.toNat = s.dec.osize.toNat + 1 := osize_succ hc hin
    have hud : u.dec.dk.toNat = s.dec.dk.toNat + 1 := toNat_add_one_inside (x := s.dec.dk) (by omega)
    obtain ⟨t, e, d⟩ := ih u (fu.caps hc) hpos (by rw [huo]; exact Nat.le_succ_of_le hist)
      (by rw [huo, fu.capTin]; omega) (by omega)
    have hnew : byteAt u .obuf s.dec.osize.toNat = b := by
      simp only [u, countCopied_byteAt, byteAt_appended_new]
    have hold : ∀ i, i ≠ s.dec.osize.toNat → byteAt u .obuf i = byteAt s .obuf i := fun i hi => by
      simp only [u, countCopied_byteAt, byteAt_appended_old _ _ hi]
    refine ⟨t, by simp only [copyRun, decCopy_inside hin, andThen_next]; exact e, fu.trans d.frame, d.state, d.errCode,
      d.errInfo, d.decOutLen, d.tidx, by rw [d.osize, huo]; omega, d.doff, d.dlen, d.dlit, by rw [d.dk, hud]; omega,
      ?_, ?_, ?_⟩
    · rw [if_neg (Nat.succ_ne_zero k), d.dphase]
      split
      · rename_i hz
        subst hz
        obtain rfl : u = t := by simpa [copyRun] using e
        rfl
      · rfl
    · intro j hj
      have hr := d.replayed (j - 1)
      rw [huo] at hr
      rcases Nat.eq_zero_or_pos j with rfl | hj0
      · rw [d.kept _ (by omega), d.kept _ (by omega), Nat.add_zero, hnew, hold _ (by omega)]
        rfl
      · have e1 : s.dec.osize.toNat + 1 + (j - 1) = s.dec.osize.toNat + j := by omega
        rw [e1] at hr
        exact hr (by omega)
    · intro i hi
      rw [d.kept i (by omega), hold i (by omega)]

/-! ### The checks -/

theorem checkThen_tooFar {s : State} (f : State → Result) (h : s.dec.osize.toNat < s.dec.doff.toNat) :
    checkThen s f = .next (raiseCorrupt s) := by simp [checkThen, offsetTooFar, h]

theorem checkThen_zeroCopy {s : State} (f : State → Result) (h0 : s.dec.doff = 0) (h1 : s.dec.dlen ≠ 0) :
    checkThen s f = .next (raiseCorrupt s) := by
  unfold checkThen
  split
  · rfl
  · rw [if_pos (by simp only [zeroOffsetCopy, h0, h1, ne_eq, not_false_eq_true, decide_true, Bool.and_self])]

theorem checkThen_passes {s : State} (f : State → Result) (h : s.dec.doff.toNat ≤ s.dec.osize.toNat)
    (hz : s.dec.doff = 0 → s.dec.dlen = 0) :
    checkThen s f = f (setDPhase (if s.dec.dlen = 0 then .lit else .copy) s) := by
  unfold checkThen
  rw [if_neg (by simp only [offsetTooFar, decide_eq_true_eq]; omega)]
  rw [if_neg]
  simp only [zeroOffsetCopy, Bool.and_eq_true, decide_eq_true_eq, not_and, not_not]
  exact hz

/-- A check fails with CORRUPT_STREAM, or both pass and `f` follows. -/
theorem checkThen_cases (s : State) (f : State → Result) :
    (checkThen s f = .next (raiseCorrupt s) ∧
      (s.dec.osize.toNat < s.dec.doff.toNat ∨ s.dec.doff = 0 ∧ s.dec.dlen ≠ 0)) ∨
    (checkThen s f = f (setDPhase (if s.dec.dlen = 0 then .lit else .copy) s) ∧
      s.dec.doff.toNat ≤ s.dec.osize.toNat ∧ (s.dec.doff = 0 → s.dec.dlen = 0)) := by
  by_cases h : s.dec.osize.toNat < s.dec.doff.toNat
  · exact .inl ⟨checkThen_tooFar f h, .inl h⟩
  by_cases h0 : s.dec.doff = 0
  · by_cases h1 : s.dec.dlen = 0
    · exact .inr ⟨checkThen_passes f (by omega) fun _ => h1, by omega, fun _ => h1⟩
    · exact .inl ⟨checkThen_zeroCopy f h0 h1, .inr ⟨h0, h1⟩⟩
  · exact .inr ⟨checkThen_passes f (by omega) fun h => absurd h h0, by omega, fun h => absurd h h0⟩

end Sys2Proof.Machine
end

