-- ==== Sys2Proof/Laws/Steps.lean ====
section
/-! SUPPORT. What one step can do, said once: the inversion of `step`, of a command and of a token. -/

namespace Sys2Proof.Machine

/-- What a command leaves alone, and all of it while BUSY (R205). -/
structure CommandFrame (s t : State) : Prop where
  busy : s.state = .busy → t = s
  encInLen : t.encInLen = s.encInLen
  decTokLen : t.decTokLen = s.decTokLen
  capIn : t.capIn = s.capIn
  capTin : t.capTin = s.capTin
  mem : ∀ b, bufMem t b = bufMem s b
  resets : t.resets = s.resets
  host : t.host = s.host
  observed : t.observed = s.observed

theorem CommandFrame.refl (s : State) : CommandFrame s s := by constructor <;> first | rfl | exact fun _ => rfl

theorem startEncoder_frame (s : State) (h : s.state ≠ .busy) :
    CommandFrame s (startEncoder (acceptStatus .encode s)) := by
  unfold startEncoder
  split <;> constructor <;> first | exact fun hb => absurd hb h | (intro b; cases b <;> rfl) | rfl

theorem startDecoder_frame (s : State) (h : s.state ≠ .busy) :
    CommandFrame s (startDecoder (acceptStatus .decode s)) := by
  unfold startDecoder
  split
  · constructor <;> first | exact fun hb => absurd hb h | (intro b; cases b <;> rfl) | rfl
  · split <;> constructor <;> first | exact fun hb => absurd hb h | (intro b; cases b <;> rfl) | rfl

/-- A command always completes, and touches no buffer, no length register and nothing of the host's. -/
theorem command_completes (v : Word) (s : State) : ∃ t, exec (decodeCommand v) s = .next t ∧ CommandFrame s t := by
  by_cases hb : s.state = .busy
  · refine ⟨s, ?_, .refl s⟩
    unfold decodeCommand
    split
    · exact unlessBusy_busy _ hb
    · split
      · exact unlessBusy_busy _ hb
      · split <;> exact unlessBusy_busy _ hb
  · unfold decodeCommand
    split
    · refine ⟨_, unlessBusy_free _ hb, ?_⟩
      split
      · constructor <;> first | exact fun h => absurd h hb | (intro b; cases b <;> rfl) | rfl
      · exact startEncoder_frame s hb
    · split
      · refine ⟨_, unlessBusy_free _ hb, ?_⟩
        split
        · constructor <;> first | exact fun h => absurd h hb | (intro b; cases b <;> rfl) | rfl
        · exact startDecoder_frame s hb
      · split <;> refine ⟨_, unlessBusy_free _ hb, ?_⟩ <;>
          constructor <;> first | exact fun h => absurd h hb | (intro b; cases b <;> rfl) | rfl

/-! ### The decoder's frame -/

/-- A step of the decoder leaves the encoder's side and the input buffers alone, and STATE stays or the operation ends. -/
def DecoderMoves (s t : State) : Prop := TokenFrame s t ∧ (t.state = s.state ∨ t.state = .done ∨ t.state = .error)

theorem DecoderMoves.trans {s t u : State} (h : DecoderMoves s t) (hs : t.state = s.state) (k : DecoderMoves t u) :
    DecoderMoves s u := ⟨h.1.trans k.1, by rw [← hs]; exact k.2⟩

theorem decCopy_moves {s t : State} (h : decCopy s = .next t) : DecoderMoves s t ∧ t.state = s.state := by
  obtain ⟨-, rfl⟩ := decCopy_eq_next h
  exact ⟨⟨(appended_frame _ _).trans (countCopied_frame _), .inl rfl⟩, rfl⟩

theorem copyRun_moves (k : Nat) : ∀ s t, copyRun k s = .next t → DecoderMoves s t ∧ t.state = s.state := by
  induction k with
  | zero =>
    intro s t h
    cases h
    exact ⟨⟨.refl s, .inl rfl⟩, rfl⟩
  | succ k ih =>
    intro s t h
    obtain ⟨u, hu, h⟩ := andThen_eq_next h
    obtain ⟨m, e⟩ := decCopy_moves hu
    obtain ⟨m', e'⟩ := ih _ _ h
    exact ⟨m.trans e m', e'.trans e⟩

theorem decLit_moves {s t : State} (h : decLit s = .next t) : DecoderMoves s t := by
  obtain ⟨-, rfl⟩ := decLit_eq_next h
  refine ⟨(appended_frame _ _).trans (nextToken_data _).1, ?_⟩
  have c := nextToken_completes (appended s.dec.dlit s)
  by_cases h : ((appended s.dec.dlit s).dec.tidx + 1).toNat < (appended s.dec.dlit s).dec.l.toNat / 2
  · exact .inl (c.more h).1
  · exact .inr (.inl (c.last h).1)

theorem checkThen_moves {s t : State} {f : State → Result} (hf : ∀ u, f u = .next t → DecoderMoves u t)
    (h : checkThen s f = .next t) : DecoderMoves s t := by
  rcases checkThen_cases s f with ⟨e, -⟩ | ⟨e, -⟩
  · cases e.symm.trans h
    exact ⟨raiseCorrupt_frame s, .inr (.inr rfl)⟩
  · exact DecoderMoves.trans (t := setDPhase (if s.dec.dlen = 0 then .lit else .copy) s)
      ⟨setDPhase_frame _ s, .inl rfl⟩ rfl (hf _ (e.symm.trans h))

theorem token_moves {p lit : Byte} {s t : State} (h : exec (decodeToken p lit) s = .next t) : DecoderMoves s t := by
  have latch : ∀ off len, DecoderMoves s (latchToken off len lit s) := fun off len =>
    ⟨latchToken_frame off len lit s, .inl rfl⟩
  unfold decodeToken at h
  split at h
  · split at h
    · exact ((latch 0 0).trans rfl ⟨setDPhase_frame .lit _, .inl rfl⟩).trans rfl (decLit_moves h)
    · cases h
      exact (latch 0 _).trans rfl ⟨raiseCorrupt_frame _, .inr (.inr rfl)⟩
  · split at h
    · exact (latch _ 0).trans rfl (checkThen_moves (fun u => decLit_moves) h)
    · refine (latch _ _).trans rfl
        (checkThen_moves (f := fun t => andThen (copyRun (lengthField p).toNat t) decLit) (fun u hu => ?_) h)
      obtain ⟨v, hv, hl⟩ := andThen_eq_next hu
      obtain ⟨m, e⟩ := copyRun_moves _ _ _ hv
      exact m.trans e (decLit_moves hl)

theorem decStep_moves {s t : State} (h : decStep s = .next t) : DecoderMoves s t := by
  unfold decStep at h
  split at h
  · obtain ⟨-, h⟩ := memRead_eq_next h
    obtain ⟨-, h⟩ := memRead_eq_next h
    exact token_moves h
  · rename_i hp
    simp only [decMicroStep, hp] at h
    exact checkThen_moves (fun u hu => by cases hu; exact ⟨.refl _, .inl rfl⟩) h
  · rename_i hp
    simp only [decMicroStep, hp] at h
    exact (decCopy_moves h).1
  · rename_i hp
    simp only [decMicroStep, hp] at h
    exact decLit_moves h

/-! ### One step -/

/-- The engine has its turn: the host is done, waits, or polls a BUSY block. -/
def EngineTurn (s u : State) : Prop :=
  (s.host = [] ∧ u = s) ∨ (∃ rest, s.host = .wait :: rest ∧ u = { s with host := rest }) ∨
  (∃ rest, s.host = .poll :: rest ∧ s.state = .busy ∧ u = s)

/-- A host operation that changes nothing but the host's own record. -/
def HostQuiet (s t : State) : Prop := ∃ op rest obs, s.host = op :: rest ∧ t = { s with host := rest, observed := obs }

/-- Everything a step that goes on can do. -/
theorem step_cases {s t : State} (h : step s = .next t) :
    (∃ u, EngineTurn s u ∧ engineStep u = .next t) ∨
    HostQuiet s t ∨
    (∃ v rest, s.host = .regWrite 0x00 4 v :: rest ∧ exec (decodeCommand v) { s with host := rest } = .next t) ∨
    (∃ v rest, s.host = .regWrite 0x0C 4 v :: rest ∧ s.state ≠ .busy ∧ t = { s with host := rest, encInLen := v }) ∨
    (∃ v rest, s.host = .regWrite 0x14 4 v :: rest ∧ s.state ≠ .busy ∧ t = { s with host := rest, decTokLen := v }) ∨
    (∃ b i v rest, s.host = .bufWrite b i v :: rest ∧ s.state ≠ .busy ∧ hostWritable b = true ∧ i < bufSize s b ∧
      t = putByte { s with host := rest } b i v) ∨
    (∃ rest, s.host = .reset :: rest ∧ t = applyReset { s with host := rest }) := by
  have quiet : ∀ op rest obs, s.host = op :: rest → t = { s with host := rest, observed := obs } → HostQuiet s t :=
    fun op rest obs h1 h2 => ⟨op, rest, obs, h1, h2⟩
  unfold step advance at h
  split at h
  · exact .inl ⟨s, .inl ⟨‹_›, rfl⟩, h⟩
  · rename_i op rest hh
    cases op with
    | wait => exact .inl ⟨_, .inr (.inl ⟨rest, hh, rfl⟩), h⟩
    | poll =>
      dsimp only at h
      split at h
      · exact .inl ⟨s, .inr (.inr ⟨rest, hh, ‹_›, rfl⟩), h⟩
      · cases h
        exact .inr (.inl (quiet _ _ _ hh rfl))
    | regRead off width =>
      obtain ⟨r, -, -, -, h⟩ := atRegister_eq_next h
      cases h
      exact .inr (.inl (quiet _ _ _ hh rfl))
    | bufRead b i =>
      obtain ⟨-, h⟩ := insideBuffer_eq_next h
      cases h
      exact .inr (.inl (quiet _ _ _ hh rfl))
    | reset =>
      cases h
      exact .inr (.inr (.inr (.inr (.inr (.inr ⟨rest, hh, rfl⟩)))))
    | bufWrite b i v =>
      obtain ⟨hi, h⟩ := insideBuffer_eq_next h
      have hi' : i < bufSize s b := by cases b <;> exact hi
      split at h
      · rename_i hw
        cases h
        exact .inr (.inr (.inr (.inr (.inr (.inl ⟨b, i, v, rest, hh, hw.1, hw.2, hi', rfl⟩)))))
      · cases h
        exact .inr (.inl (quiet _ _ _ hh rfl))
    | regWrite off width v =>
      obtain ⟨r, rfl, -, hr, h⟩ := atRegister_eq_next h
      have hoff : (r = .cmd → off = 0x00) ∧ (r = .encInLen → off = 0x0C) ∧ (r = .decTokLen → off = 0x14) := by
        unfold regAt at hr
        split at hr <;> cases hr <;> refine ⟨?_, ?_, ?_⟩ <;> intro hc <;> first | rfl | cases hc
      cases r with
      | cmd =>
        rw [hoff.1 rfl] at hh
        exact .inr (.inr (.inl ⟨v, rest, hh, h⟩))
      | encInLen =>
        rw [hoff.2.1 rfl] at hh
        simp only [writeReg, writeEncInLen] at h
        split at h <;> cases h
        · exact .inr (.inl (quiet _ _ _ hh rfl))
        · rename_i hb
          exact .inr (.inr (.inr (.inl ⟨v, rest, hh, hb, rfl⟩)))
      | decTokLen =>
        rw [hoff.2.2 rfl] at hh
        simp only [writeReg, writeDecTokLen] at h
        split at h <;> cases h
        · exact .inr (.inl (quiet _ _ _ hh rfl))
        · rename_i hb
          exact .inr (.inr (.inr (.inr (.inl ⟨v, rest, hh, hb, rfl⟩))))
      | status => cases h; exact .inr (.inl (quiet _ _ _ hh rfl))
      | errInfo => cases h; exact .inr (.inl (quiet _ _ _ hh rfl))
      | encTokCount => cases h; exact .inr (.inl (quiet _ _ _ hh rfl))
      | decOutLen => cases h; exact .inr (.inl (quiet _ _ _ hh rfl))
      | param => cases h; exact .inr (.inl (quiet _ _ _ hh rfl))
      | capIn => cases h; exact .inr (.inl (quiet _ _ _ hh rfl))
      | capTin => cases h; exact .inr (.inl (quiet _ _ _ hh rfl))
      | reserved => cases h; exact .inr (.inl (quiet _ _ _ hh rfl))

/-- An engine moves only while BUSY, and it is the one LAST_OP names. -/
theorem engineStep_cases {s t : State} (h : engineStep s = .next t) :
    t = s ∨ (s.state = .busy ∧ s.lastOp = .encode ∧ encStep s = .next t) ∨
    (s.state = .busy ∧ s.lastOp = .decode ∧ decStep s = .next t) := by
  unfold engineStep at h
  split at h
  · rename_i hb
    split at h
    · rename_i ho
      exact .inr (.inl ⟨hb, ho, h⟩)
    · rename_i ho
      exact .inr (.inr ⟨hb, ho, h⟩)
    · cases h
      exact .inl rfl
  all_goals
    cases h
    exact .inl rfl

theorem EngineTurn.engine {s u : State} (h : EngineTurn s u) :
    u.state = s.state ∧ u.lastOp = s.lastOp ∧ u.enc = s.enc ∧ u.dec = s.dec ∧ u.capIn = s.capIn ∧
    u.capTin = s.capTin ∧ (∀ b, bufMem u b = bufMem s b) ∧ u.resets = s.resets := by
  rcases h with ⟨-, rfl⟩ | ⟨rest, -, rfl⟩ | ⟨rest, -, -, rfl⟩ <;>
    exact ⟨rfl, rfl, rfl, rfl, rfl, rfl, fun b => by cases b <;> rfl, rfl⟩

end Sys2Proof.Machine
end

