-- ==== Sys2Proof/Tests/Slice0.lean ====
section
/-! SUPPORT. The model's own tests. Expected values come from spec/95_test_vectors.md and from the encodings of
spec/30_encoding.md, as each section says; the last section shows, for every statement with hypotheses, a state and
operands that meet them. -/

namespace Sys2Proof.Tests
open Sys2Proof Sys2Proof.Machine

/-! ### Small states -/

/-- The block after reset with the capacities of 95_test_vectors.md section 2.5. -/
def idle16 : State := { State.reset with capIn := 16, capTin := 16 }

/-- A running decode at D_FETCH of token `tidx` of a stream `dt` of `l` bytes, the output so far being `ob`. -/
def decoding (l tidx osize : Word) (dt ob : Memory) : State :=
  { idle16 with
    state := .busy, lastOp := .decode, decTokLen := l, dtbuf := dt, obuf := ob
    dec := { DecRegs.reset with l := l, tidx := tidx, osize := osize } }

/-- A running encode of "aaa" at cursor 1 (95_test_vectors.md section 2.4). -/
def encodingAaa (e : EncRegs) : State :=
  { idle16 with
    state := .busy, lastOp := .encode, encInLen := 3
    ibuf := [(0, 0x61), (1, 0x61), (2, 0x61)], etbuf := [(0, 0x00), (1, 0x61)]
    enc := { e with n := 3, pos := 1, tcount := 1 } }

/-- `s` with one host operation. -/
def withHost (s : State) (op : HostOp) : State := { s with host := [op] }

/-- Whether the next state exists and meets `f`. -/
def after (r : Result) (f : State → Bool) : Bool :=
  match r with
  | .next t => f t
  | .fault _ => false
  | .refused _ => false

/-- STATUS and ERR_INFO. -/
def record (s : State) : Word × Word := (statusWord s, s.errInfo)

/-- The first `n` bytes of OBUF. -/
def output (s : State) (n : Nat) : List Byte := bufBytes s .obuf n

/-! ### Well-formedness: one ill-formed term for each check -/

theorem test_wf_refuses_lito_offset_zero : (Instr.lito 0 0x61).wf = false := by decide
theorem test_wf_refuses_cpy_offset_zero : (Instr.cpy 0 3 0x61).wf = false := by decide
theorem test_wf_refuses_cpy_length_zero : (Instr.cpy 3 0 0x61).wf = false := by decide
theorem test_wf_refuses_bad0_length_zero : (Instr.bad0 0 0x61).wf = false := by decide
theorem test_wf_refuses_illegal_named_commands :
    (Instr.illegalCmd 1).wf = false ∧ (Instr.illegalCmd 2).wf = false ∧ (Instr.illegalCmd 3).wf = false := by decide
theorem test_wf_accepts_largest_fields :
    (Instr.cpy 31 7 0xFF).wf = true ∧ (Instr.lito 31 0).wf = true ∧ (Instr.bad0 7 0).wf = true ∧
    (Instr.illegalCmd 0).wf = true := by decide

/-! ### Decoding: words written out from R85, R89 and R91 -/

/-- 00000 000 01100001 -/
theorem test_decode_lit0 : decodeTableWord 16 0b0000000001100001 = some (.lit0 0x61) := by decide
/-- 00001 000 01100010 -/
theorem test_decode_lito : decodeTableWord 16 0b0000100001100010 = some (.lito 1 0x62) := by decide
/-- 11111 111 00100001, the token 0xFF21 of X5c -/
theorem test_decode_cpy : decodeTableWord 16 0b1111111100100001 = some (.cpy 31 7 0x21) := by decide
/-- 00000 011 01100001 -/
theorem test_decode_bad0 : decodeTableWord 16 0b0000001101100001 = some (.bad0 3 0x61) := by decide
theorem test_decode_commands :
    decodeTableWord 32 0x00000001 = some .startEncode ∧ decodeTableWord 32 0x00000002 = some .startDecode ∧
    decodeTableWord 32 0x00000003 = some .clear ∧ decodeTableWord 32 0x80000001 = some (.illegalCmd 0x80000001) ∧
    decodeTableWord 32 0x00000000 = some (.illegalCmd 0) := by decide
/-- The stream of X8: LIT 'a', then CPY 1, 5, 'x'; half a record and no record hold no token (R88). -/
theorem test_decode_bytes :
    decodeBytes [0x00, 0x61, 0x0D, 0x78] = .ok (.lit0 0x61, [0x0D, 0x78]) ∧
    decodeBytes [0x0D, 0x78] = .ok (.cpy 1 5 0x78, []) ∧
    decodeBytes [0x08] = .error .truncatedRecord ∧ decodeBytes [] = .error .endOfStream := ⟨rfl, rfl, rfl, rfl⟩
theorem test_other_widths_hold_no_instruction : decodeTableWord 8 0 = none ∧ decodeTableWord 64 1 = none := by decide

/-! ### Token Codec: 95_test_vectors.md section 2.1 -/

theorem test_pack : pack 9 7 = some 0x4F ∧ pack 31 0 = some 0xF8 ∧ pack 0 8 = none ∧ pack 40 1 = none := by decide
theorem test_unpack : unpack 0x55 = (10, 5) ∧ unpack 0x8A = (17, 2) ∧ unpack 0x08 = (1, 0) := by decide

/-! ### Tokens: one step each; streams of 95_test_vectors.md X7, X8 and section 2.3 -/

/-- Stream `00 61`, L = 2. -/
theorem test_lit0_ends_decode :
    after (step (decoding 2 0 0 [(0, 0x00), (1, 0x61)] [])) (fun t =>
      record t = (0x0000000A, 0) && t.decOutLen = 1 && output t 1 = [0x61]) = true := by decide
/-- Stream `00 61 08 62`, its second token. -/
theorem test_lito_inside_history :
    after (step (decoding 4 1 1 [(0, 0x00), (1, 0x61), (2, 0x08), (3, 0x62)] [(0, 0x61)])) (fun t =>
      record t = (0x0000000A, 0) && t.decOutLen = 2 && output t 2 = [0x61, 0x62]) = true := by decide
/-- Stream `08 62`: LITO 1 on an empty output. -/
theorem test_lito_beyond_history :
    after (step (decoding 2 0 0 [(0, 0x08), (1, 0x62)] [])) (fun t =>
      record t = (0x0000020B, 0) && t.decOutLen = 0 && t.obuf = []) = true := by decide
/-- Stream `00 61 0D 78`, its second token: "aaaaaax". -/
theorem test_cpy_overlaps :
    after (step (decoding 4 1 1 [(0, 0x00), (1, 0x61), (2, 0x0D), (3, 0x78)] [(0, 0x61)])) (fun t =>
      record t = (0x0000000A, 0) && t.decOutLen = 7 &&
      output t 7 = [0x61, 0x61, 0x61, 0x61, 0x61, 0x61, 0x78]) = true := by decide
/-- Stream `00 61 1F 62`, its second token: CPY 3 after one byte. -/
theorem test_cpy_beyond_history :
    after (step (decoding 4 1 1 [(0, 0x00), (1, 0x61), (2, 0x1F), (3, 0x62)] [(0, 0x61)])) (fun t =>
      record t = (0x0000020B, 1) && t.decOutLen = 1 && t.obuf = [(0, 0x61)]) = true := by decide
/-- Stream `00 61 03 61`, its second token. -/
theorem test_bad0 :
    after (step (decoding 4 1 1 [(0, 0x00), (1, 0x61), (2, 0x03), (3, 0x61)] [(0, 0x61)])) (fun t =>
      record t = (0x0000020B, 1) && t.decOutLen = 1 && t.obuf = [(0, 0x61)]) = true := by decide

/-! ### Commands and registers: 95_test_vectors.md section 2.5 -/

theorem test_start_encode_empty :
    after (step (withHost idle16 (.regWrite 0x00 4 1))) (fun t =>
      record t = (0x00000006, 0) && t.encTokCount = 0) = true := by decide
theorem test_start_encode_too_long :
    after (step (withHost { idle16 with encInLen := 17, encTokCount := 5 } (.regWrite 0x00 4 1))) (fun t =>
      record t = (0x00000407, 17) && t.encTokCount = 0) = true := by decide
theorem test_start_decode_length_error_wins :
    after (step (withHost { idle16 with decTokLen := 17 } (.regWrite 0x00 4 2))) (fun t =>
      record t = (0x0000040B, 17) && t.decOutLen = 0) = true := by decide
theorem test_start_decode_truncated :
    after (step (withHost { idle16 with decTokLen := 3 } (.regWrite 0x00 4 2))) (fun t =>
      record t = (0x0000030B, 3) && t.decOutLen = 0) = true := by decide
theorem test_clear_keeps_out_len :
    after (step (withHost { idle16 with
        state := .error, lastOp := .decode, errCode := .corruptStream, errInfo := 1, decOutLen := 1 }
      (.regWrite 0x00 4 3))) (fun t => record t = (0x00000000, 0) && t.decOutLen = 1) = true := by decide
theorem test_illegal_command_replaces_record :
    after (step (withHost { idle16 with state := .error, errCode := .illegalCommand } (.regWrite 0x00 4 9)))
      (fun t => record t = (0x00000503, 9)) = true := by decide
theorem test_busy_ignores_clear :
    after (step (withHost (decoding 2 0 0 [] []) (.regWrite 0x00 4 3))) (fun t => record t = (0x00000009, 0)) = true := by
  decide
theorem test_param_reads :
    after (step (withHost idle16 (.regRead 0x1C 4))) (fun t => t.observed = [0x0035071F]) = true := by decide
theorem test_busy_reads_placeholders :
    after (step (withHost { encodingAaa EncRegs.reset with encTokCount := 9 } (.regRead 0x10 4)))
      (fun t => t.observed = [0]) = true ∧
    after (step (withHost (encodingAaa EncRegs.reset) (.bufRead .etbuf 1))) (fun t => t.observed = [0]) = true := by decide

/-! ### The encoder's phases: the trace of 95_test_vectors.md section 2.4 -/

/-- Step 9: the candidate ends at the end of the input with 2 equal bytes and becomes the best. -/
theorem test_scan_ends_candidate :
    after (encStep (encodingAaa { EncRegs.reset with s := 0, k := 2, bestS := 1, ephase := .scan })) (fun t =>
      t.enc.bestLen = 2 && t.enc.bestS = 0 && t.enc.s = 1 && t.enc.ephase = .clamp) = true := by decide
/-- Step 10: the clamp leaves one literal byte. -/
theorem test_clamp_leaves_literal :
    after (encStep (encodingAaa { EncRegs.reset with bestLen := 2, bestS := 0, ephase := .clamp })) (fun t =>
      t.enc.len = 1 && t.enc.off = 1 && t.enc.ephase = .validate) = true := by decide
/-- Step 12: the record `09 61`. -/
theorem test_emit_writes_record :
    after (encStep (encodingAaa { EncRegs.reset with len := 1, off := 1, ephase := .emit })) (fun t =>
      bufBytes t .etbuf 4 = [0x00, 0x61, 0x09, 0x61] && t.enc.tcount = 2) = true := by decide
/-- Step 13: the cursor reaches the end of the input. -/
theorem test_advance_ends_encode :
    after (encStep { encodingAaa { EncRegs.reset with len := 1, off := 1, ephase := .advance } with
        enc := { EncRegs.reset with n := 3, pos := 1, tcount := 2, len := 1, off := 1, ephase := .advance } }) (fun t =>
      record t = (0x00000006, 0) && t.encTokCount = 2) = true := by decide

/-! ### The normative functions: X11 and X8 -/

theorem test_encodeF_tie_break :
    encodeF [0x61, 0x62, 0x58, 0x61, 0x62, 0x59, 0x61, 0x62, 0x21] =
      .ok [⟨0, 0, 0x61⟩, ⟨0, 0, 0x62⟩, ⟨0, 0, 0x58⟩, ⟨3, 2, 0x59⟩, ⟨6, 2, 0x21⟩] := by decide
theorem test_decodeF_overlap :
    decodeF [0x00, 0x61, 0x0D, 0x78] = .ok [0x61, 0x61, 0x61, 0x61, 0x61, 0x61, 0x78] := by decide

/-! ### Witnesses: for each statement with hypotheses, operands and a state that meet them together -/

theorem caps16 (s : State) (hi : s.capIn = 16) (ht : s.capTin = 16) : CapsLegal s := by
  constructor <;> simp only [hi, ht] <;> decide

/-- A decode of `00 61 0D 78` before its second token. -/
def midDecode : State := decoding 4 1 1 [(0, 0x00), (1, 0x61), (2, 0x0D), (3, 0x78)] [(0, 0x61)]

/-- The longest output a token may start on: 31 bytes of history in an OBUF of 64. -/
def longDecode : State := decoding 16 4 31 [(8, 0xFF), (9, 0x21)] []

/-- An encode of "aaa" at E_EMIT of its second token. -/
def midEncode : State := encodingAaa { EncRegs.reset with len := 1, off := 1, ephase := .emit }

/-- The block after an error, as a START may find it. -/
def failed : State := { idle16 with state := .error, errCode := .illegalCommand, errInfo := 9 }

theorem test_witness_DecodeEncodeRoundTrip :
    (Instr.lit0 0xFF).wf = true ∧ (Instr.lito 31 0).wf = true ∧ (Instr.cpy 31 7 0xFF).wf = true ∧
    (Instr.bad0 7 0).wf = true ∧ Instr.startEncode.wf = true ∧ Instr.startDecode.wf = true ∧ Instr.clear.wf = true ∧
    (Instr.illegalCmd 0xFFFFFFFF).wf = true := by decide

theorem test_witness_TokenClassByTableMask :
    ((0x00 : Byte) ++ (0xFF : Byte)) &&& 0xFF00 = (0 : BitVec 16) ∧
    (((0xF8 : Byte) ++ (0 : Byte)) &&& 0x0700 = (0 : BitVec 16) ∧ ((0xF8 : Byte) ++ (0 : Byte)) &&& 0xF800 ≠ (0 : BitVec 16)) ∧
    (((0x09 : Byte) ++ (0 : Byte)) &&& 0xF800 ≠ (0 : BitVec 16) ∧ ((0x09 : Byte) ++ (0 : Byte)) &&& 0x0700 ≠ (0 : BitVec 16)) ∧
    (((0x07 : Byte) ++ (0 : Byte)) &&& 0xF800 = (0 : BitVec 16) ∧ ((0x07 : Byte) ++ (0 : Byte)) &&& 0x0700 ≠ (0 : BitVec 16)) := by
  decide

theorem test_witness_PackChecksFullWidth :
    (31 < (32 : Word).toNat ∨ 7 < (0 : Word).toNat) ∧ (31 < (31 : Word).toNat ∨ 7 < (8 : Word).toNat) ∧
    ((31 : Word).toNat ≤ 31 ∧ (7 : Word).toNat ≤ 7) := by decide

theorem test_witness_PackingRoundTrip : (31 : Word).toNat ≤ 31 ∧ (7 : Word).toNat ≤ 7 := by decide

theorem test_witness_CommandWordDecoding :
    (0 : Word) ≠ 1 ∧ (0 : Word) ≠ 2 ∧ (0 : Word) ≠ 3 ∧ (4 : Word) ≠ 1 ∧ (4 : Word) ≠ 2 ∧ (4 : Word) ≠ 3 := by decide

theorem test_witness_StepRunsDecodedToken :
    (midDecode.state = .busy ∧ midDecode.lastOp = .decode ∧ midDecode.dec.dphase = .fetch ∧
      2 * midDecode.dec.tidx.toNat + 1 < midDecode.capTin ∧ midDecode.host = []) ∧
    (withHost midDecode .wait).host = [.wait] ∧ (withHost midDecode .poll).host = [.poll] := by decide

theorem test_witness_StepRunsDecodedCommand : (withHost failed (.regWrite 0x00 4 1)).host = [.regWrite 0x00 4 1] := by
  decide

/-- The last token a DTBUF of 16 bytes holds. -/
theorem test_witness_PlacedWordRunsNext : 2 * (decoding 16 7 0 [] []).dec.tidx.toNat + 1 < idle16.capTin := by decide

theorem test_witness_Lit0AppendsLiteral :
    CapsLegal longDecode ∧ longDecode.dec.osize.toNat < 4 * longDecode.capTin := ⟨caps16 _ rfl rfl, by decide⟩

theorem test_witness_LitoAppendsLiteral :
    (lengthField 0xF8 = 0 ∧ offsetField 0xF8 ≠ 0) ∧ midDecode.dec.osize.toNat < (2 : Offset).toNat ∧
    CapsLegal longDecode ∧ longDecode.dec.osize.toNat < 4 * longDecode.capTin ∧
    (31 : Offset).toNat ≤ longDecode.dec.osize.toNat := ⟨by decide, by decide, caps16 _ rfl rfl, by decide, by decide⟩

theorem test_witness_CpyReplaysThenAppends :
    (lengthField 0xFF ≠ 0 ∧ offsetField 0xFF ≠ 0) ∧ midDecode.dec.osize.toNat < (2 : Offset).toNat ∧
    CapsLegal longDecode ∧ (31 : Offset) ≠ 0 ∧ (31 : Offset).toNat ≤ longDecode.dec.osize.toNat ∧
    longDecode.dec.osize.toNat + (7 : Length).toNat < 4 * longDecode.capTin :=
  ⟨by decide, by decide, caps16 _ rfl rfl, by decide, by decide, by decide⟩

theorem test_witness_Bad0RaisesCorruptStream : lengthField 0x07 ≠ 0 ∧ offsetField 0x07 = 0 := by decide

/-- One more than the output size, and exactly the output size. -/
theorem test_witness_OffsetBeyondOutputIsCorrupt :
    midDecode.dec.osize.toNat < (offsetField 0x10).toNat ∧
    (CapsLegal longDecode ∧ offsetField 0xFF ≠ 0 ∧ (offsetField 0xFF).toNat = longDecode.dec.osize.toNat ∧
      longDecode.dec.osize.toNat + (lengthField 0xFF).toNat < 4 * longDecode.capTin ∧ lengthField 0xFF ≠ 0) :=
  ⟨by decide, caps16 _ rfl rfl, by decide⟩

theorem test_witness_TokenCompletesOrWritesNothing :
    (Instr.cpy 1 5 0x78).isToken = true ∧ CapsLegal midDecode ∧
    (∃ t, exec (.cpy 1 5 0x78) midDecode = .next t ∧ t.state = .done) ∧
    ∃ t, exec (.cpy 2 5 0x78) midDecode = .next t ∧ t.state = .error :=
  ⟨rfl, caps16 _ rfl rfl, ⟨_, rfl, rfl⟩, ⟨_, rfl, rfl⟩⟩

theorem test_witness_TokenEqualsMicroSteps :
    midDecode.dec.dphase = .fetch ∧ 2 * midDecode.dec.tidx.toNat + 1 < midDecode.capTin := by decide

/-- From ERROR: one byte too many, exactly IN_CAP bytes, and none. -/
theorem test_witness_StartEncodeCommand :
    failed.state ≠ .busy ∧ failed.capIn < ({ failed with encInLen := 17 } : State).encInLen.toNat ∧
    (({ failed with encInLen := 16 } : State).encInLen.toNat ≤ failed.capIn ∧ (16 : Word) ≠ 0) ∧
    failed.encInLen = 0 := by decide

/-- From ERROR: one byte too many (odd), the largest odd length, the largest even length, and none. -/
theorem test_witness_StartDecodeCommand :
    failed.state ≠ .busy ∧ failed.capTin < ({ failed with decTokLen := 17 } : State).decTokLen.toNat ∧
    ((15 : Word).toNat ≤ failed.capTin ∧ (15 : Word).toNat % 2 = 1) ∧
    ((16 : Word).toNat ≤ failed.capTin ∧ (16 : Word).toNat % 2 = 0 ∧ (16 : Word) ≠ 0) ∧
    failed.decTokLen = 0 := by decide

theorem test_witness_LengthErrorOnStart :
    let s := withHost { failed with encInLen := 17 } (.regWrite 0x00 4 1)
    let t := withHost { failed with decTokLen := 18 } (.regWrite 0x00 4 2)
    (s.state ≠ .busy ∧ s.host = [.regWrite 0x00 4 1] ∧ s.capIn < s.encInLen.toNat) ∧
    (t.state ≠ .busy ∧ t.host = [.regWrite 0x00 4 2] ∧ t.capTin < t.decTokLen.toNat) := by decide

theorem test_witness_ClearResetsStatusOnly : failed.state ≠ .busy := by decide

theorem test_witness_IllegalCommandRecordsValue :
    failed.state ≠ .busy ∧ (0 : Word) ≠ 1 ∧ (0 : Word) ≠ 2 ∧ (0 : Word) ≠ 3 := by decide

theorem test_witness_CommandsIgnoredWhileBusy : midDecode.state = .busy := by decide

/-- The first and the last offset of the window. -/
theorem test_witness_RegisterReadsAreSideEffectFree :
    (0x00 % 4 = 0 ∧ 0x00 ≤ 0x3C ∧ (withHost idle16 (.regRead 0x00 4)).host = [.regRead 0x00 4]) ∧
    (0x3C % 4 = 0 ∧ 0x28 ≤ 0x3C ∧ (withHost midDecode (.regRead 0x3C 4)).host = [.regRead 0x3C 4]) := by decide

theorem test_witness_ReadOnlyWritesIgnored :
    0x3C ∈ [0x04, 0x08, 0x10, 0x18, 0x1C, 0x20, 0x24, 0x28, 0x2C, 0x30, 0x34, 0x38, 0x3C] ∧
    (withHost midDecode (.regWrite 0x3C 4 1)).host = [.regWrite 0x3C 4 1] := by decide

theorem test_witness_LengthRegisterWrites :
    ((withHost failed (.regWrite 0x0C 4 17)).host = [.regWrite 0x0C 4 17] ∧ (withHost failed (.regWrite 0x0C 4 17)).state ≠ .busy) ∧
    ((withHost midDecode (.regWrite 0x14 4 5)).host = [.regWrite 0x14 4 5] ∧
      (withHost midDecode (.regWrite 0x14 4 5)).state = .busy) := by decide

/-- The last index of a buffer, while BUSY and not. -/
theorem test_witness_HostBufferWrites :
    ((withHost midDecode (.bufWrite .ibuf 15 1)).host = [.bufWrite .ibuf 15 1] ∧ 15 < bufSize midDecode .ibuf ∧
      midDecode.state = .busy) ∧
    ((withHost failed (.bufWrite .obuf 63 1)).host = [.bufWrite .obuf 63 1] ∧ 63 < bufSize failed .obuf) ∧
    ((withHost failed (.bufWrite .dtbuf 15 1)).host = [.bufWrite .dtbuf 15 1] ∧ 15 < bufSize failed .dtbuf ∧
      failed.state ≠ .busy) := by decide

theorem test_witness_HostBufferReads :
    ((withHost midDecode (.bufRead .etbuf 31)).host = [.bufRead .etbuf 31] ∧ 31 < bufSize midDecode .etbuf ∧
      midDecode.state = .busy) ∧
    ((withHost failed (.bufRead .ibuf 15)).host = [.bufRead .ibuf 15] ∧ 15 < bufSize failed .ibuf ∧ failed.state ≠ .busy) ∧
    (1 < bufSize failed .etbuf ∧ 1 < 2 * ({ failed with encTokCount := 1 } : State).encTokCount.toNat) ∧
    (6 < bufSize failed .obuf ∧ 6 < ({ failed with decOutLen := 7 } : State).decOutLen.toNat) := by decide

/-- A byte access, an unaligned access, the first offset past the window, and the first index past a buffer. -/
theorem test_witness_AccessesOutsideTheMapRefused :
    (1 ≠ 4 ∨ 0x04 % 4 ≠ 0) ∧ (4 ≠ 4 ∨ 0x02 % 4 ≠ 0) ∧ (0x40 % 4 = 0 ∧ 0x40 ≤ 0x40) ∧ bufSize idle16 .etbuf ≤ 32 ∧
    (withHost idle16 (.bufRead .etbuf 32)).host = [.bufRead .etbuf 32] := by decide

theorem test_witness_ResetAtAnyTime : (withHost midDecode .reset).host = [.reset] := by decide

theorem test_witness_CapacitiesNeverChange : ∃ t, step (withHost midDecode .reset) = .next t := ⟨_, rfl⟩

theorem test_witness_OnlyHostWritesInputBuffers :
    ∃ t, step (withHost failed (.bufWrite .ibuf 0 1)) = .next t ∧ bufMem t .ibuf ≠ bufMem failed .ibuf :=
  ⟨_, rfl, by decide⟩

theorem test_witness_OnlyEnginesWriteOutputBuffers :
    (∃ t, step midEncode = .next t ∧ t.etbuf ≠ midEncode.etbuf ∧ ∀ rest, midEncode.host ≠ .reset :: rest) ∧
    ∃ t, step midDecode = .next t ∧ t.obuf ≠ midDecode.obuf ∧ ∀ rest, midDecode.host ≠ .reset :: rest :=
  ⟨⟨_, rfl, by decide, fun _ => nofun⟩, ⟨_, rfl, by decide, fun _ => nofun⟩⟩

theorem test_witness_WhatMovesTheBlockState :
    (∃ t, step midDecode = .next t ∧ t.state ≠ midDecode.state ∧ midDecode.state = .busy ∧
      ∀ rest, midDecode.host ≠ .reset :: rest) ∧
    ∃ t, step (withHost failed (.regWrite 0x00 4 3)) = .next t ∧ t.state ≠ failed.state ∧ failed.state ≠ .busy ∧
      ∀ rest, (withHost failed (.regWrite 0x00 4 3)).host ≠ .reset :: rest :=
  ⟨⟨_, rfl, by decide, by decide, fun _ => nofun⟩, ⟨_, rfl, by decide, by decide, fun _ => nofun⟩⟩

theorem test_witness_EncoderStepFrame :
    ∃ t, encStep midEncode = .next t ∧ byteAt t .etbuf 2 ≠ byteAt { midEncode with etbuf := [(2, 0x00)] } .etbuf 2 :=
  ⟨_, rfl, by decide⟩

theorem test_witness_EmitAppendsRecord :
    midEncode.enc.ephase = .emit ∧ midEncode.enc.tcount.toNat < midEncode.capIn ∧
    midEncode.enc.pos.toNat + midEncode.enc.len.toNat < midEncode.capIn := by decide

theorem buffers_of_wf (s : State)
    (h : ∀ b ∈ [Buf.ibuf, .etbuf, .dtbuf, .obuf],
      Memory.wf (bufMem s b) = true ∧ (bufMem s b).all (fun c => decide (c.1 < bufSize s b)) = true) : BuffersLegal s := by
  intro b
  have hb := h b (by cases b <;> decide)
  exact ⟨hb.1, fun c hc => of_decide_eq_true (List.all_eq_true.1 hb.2 c hc)⟩

/-- A running decode meets the invariant, and its next step ends the operation. -/
theorem midDecode_inv : Inv midDecode where
  caps := caps16 _ rfl rfl
  status := by constructor <;> decide
  buffers := buffers_of_wf _ (by decide)
  counts := ⟨by decide, by decide⟩
  encoding := fun _ h => nomatch h
  decoding := fun _ _ => ⟨rfl, by decide, by decide, by decide, rfl, by
    show midDecode.dec.osize.toNat ≤ 8 * midDecode.dec.tidx.toNat
    decide⟩

/-- A running encode meets the invariant. -/
theorem midEncode_inv : Inv midEncode where
  caps := caps16 _ rfl rfl
  status := by constructor <;> decide
  buffers := buffers_of_wf _ (by decide)
  counts := ⟨by decide, by decide⟩
  encoding := fun _ _ => ⟨rfl, by decide, by decide, rfl, by
    refine ⟨by decide, ?_⟩
    constructor <;> decide⟩
  decoding := fun _ h => nomatch h

theorem test_witness_StatusValuesThatOccur : Inv midDecode ∧ Inv midEncode := ⟨midDecode_inv, midEncode_inv⟩

theorem test_witness_EveryStepKeepsInvariant :
    (Inv midDecode ∧ ∃ t, step midDecode = .next t) ∧ Inv midEncode ∧ ∃ t, step midEncode = .next t :=
  ⟨⟨midDecode_inv, ⟨_, rfl⟩⟩, midEncode_inv, ⟨_, rfl⟩⟩

theorem test_witness_NoEngineAccessFaults : Inv midDecode ∧ Inv midEncode := ⟨midDecode_inv, midEncode_inv⟩

theorem test_witness_EveryOperationEnds : Inv midEncode ∧ midEncode.state = .busy ∧ midEncode.host = [] :=
  ⟨midEncode_inv, rfl, rfl⟩

theorem test_witness_EncoderComputesEncodeF :
    let s := withHost { failed with encInLen := 16 } (.regWrite 0x00 4 0x00000001)
    CapsLegal s ∧ s.state ≠ .busy ∧ s.encInLen.toNat ≤ s.capIn ∧ s.host = [.regWrite 0x00 4 0x00000001] :=
  ⟨caps16 _ rfl rfl, by decide, by decide, rfl⟩

theorem test_witness_DecoderComputesDecodeF :
    let s := withHost { failed with decTokLen := 15 } (.regWrite 0x00 4 0x00000002)
    CapsLegal s ∧ s.state ≠ .busy ∧ s.decTokLen.toNat ≤ s.capTin ∧ s.host = [.regWrite 0x00 4 0x00000002] :=
  ⟨caps16 _ rfl rfl, by decide, by decide, rfl⟩

/-- The match of X4, capped by the end of the input at 7. -/
theorem test_witness_MatchLengthIsLongestRun :
    0 < 1 ∧ 1 ≤ (List.replicate 8 (0x61 : Byte)).length ∧ matchLength (List.replicate 8 0x61) 0 1 = 7 ∧
    matchLength [0x61, 0x61, 0x62] 0 1 = 1 := by decide

theorem test_witness_SearchTakesOldestLongest :
    6 - 31 ≤ 3 ∧ 3 < 6 ∧ 0 < (bestMatch [0x61, 0x62, 0x58, 0x61, 0x62, 0x59, 0x61, 0x62, 0x21] 6).1 ∧
    (bestMatch [0x61, 0x62] 1).1 = 0 := by decide

theorem test_witness_EmittedTokensAreCanonical :
    encodeF [0x61, 0x61, 0x61] = .ok [⟨0, 0, 0x61⟩, ⟨1, 1, 0x61⟩] ∧
    ([⟨0, 0, 0x61⟩, ⟨1, 1, 0x61⟩] : List Token)[1]? = some ⟨1, 1, 0x61⟩ ∧ 0 < (⟨1, 1, 0x61⟩ : Token).len := by decide

theorem test_witness_TokensCoverInput :
    encodeF [0x61, 0x61, 0x61] = .ok [⟨0, 0, 0x61⟩, ⟨1, 1, 0x61⟩] ∧ encodeF [] = .ok [] := by decide

theorem test_witness_DecodedLength : decodeF [0x00, 0x61, 0x08, 0x62] = .ok [0x61, 0x62] ∧ decodeF [] = .ok [] := by decide

end Sys2Proof.Tests
end

section
/-! The CMD decoder, one equation per command (30_encoding.md R89). -/

namespace Sys2Proof

@[simp] theorem decodeCommand_one : decodeCommand 1 = .startEncode := rfl

@[simp] theorem decodeCommand_two : decodeCommand 2 = .startDecode := rfl

@[simp] theorem decodeCommand_three : decodeCommand 3 = .clear := rfl

/-- No bit of a CMD value is ignored: a value other than the three codes fails every test of the decoder. -/
theorem decodeCommand_of_ne {v : Word} (h1 : v ≠ 1) (h2 : v ≠ 2) (h3 : v ≠ 3) :
    decodeCommand v = .illegalCmd v := by
  rw [decodeCommand, if_neg h1, if_neg h2, if_neg h3]

/-- Settles O7, from the decoder's equation for each of the three codes and the one for every other value. -/
theorem commandWordDecoding : Obligations.CommandWordDecoding :=
  ⟨decodeCommand_one, decodeCommand_two, decodeCommand_three, fun _ => decodeCommand_of_ne⟩

end Sys2Proof
end

section
/-! The Token Codec: PACK and UNPACK on values in range, as arithmetic on the two fields (40_codec.md R100 to R102). -/

namespace Sys2Proof

/-- The disjunction of R100 is a sum, for the two fields share no bit. -/
theorem packedByte_eq_mul_add (off : Nat) {len : Nat} (hlen : len ≤ 7) :
    packedByte off len = BitVec.ofNat 8 (8 * off + len) := by
  have hbits : len < 2 ^ 3 := by omega
  rw [packedByte, ← Nat.shiftLeft_add_eq_or_of_lt hbits, Nat.shiftLeft_eq, Nat.mul_comm off]

theorem pack_eq_none {off len : Word} (h : 31 < off.toNat ∨ 7 < len.toNat) : pack off len = none :=
  if_pos h

theorem pack_eq_packedByte {off len : Word} (hoff : off.toNat ≤ 31) (hlen : len.toNat ≤ 7) :
    pack off len = some (packedByte off.toNat len.toNat) :=
  if_neg (not_or.2 ⟨Nat.not_lt.2 hoff, Nat.not_lt.2 hlen⟩)

/-- Zero-extended fields are always in range, so PACK takes them. -/
theorem pack_setWidth (off : Offset) (len : Length) :
    pack (off.setWidth 32) (len.setWidth 32) = some (packedByte off.toNat len.toNat) := by
  have hoff : (off.setWidth 32).toNat = off.toNat := BitVec.toNat_setWidth_of_le (by decide)
  have hlen : (len.setWidth 32).toNat = len.toNat := BitVec.toNat_setWidth_of_le (by decide)
  rw [pack_eq_packedByte (by omega) (by omega), hoff, hlen]

theorem toNat_offsetField (p : Byte) : (offsetField p).toNat = p.toNat / 8 := by
  rw [offsetField, BitVec.extractLsb'_toNat, Nat.shiftRight_eq_div_pow]
  omega

theorem toNat_lengthField (p : Byte) : (lengthField p).toNat = p.toNat % 8 := by
  rw [lengthField, BitVec.extractLsb'_toNat, Nat.shiftRight_zero]

theorem unpack_eq_div_mod (p : Byte) :
    unpack p = (BitVec.ofNat 32 (p.toNat / 8), BitVec.ofNat 32 (p.toNat % 8)) := by
  rw [unpack, ← toNat_offsetField, ← toNat_lengthField, BitVec.ofNat_toNat, BitVec.ofNat_toNat]

theorem unpack_packedByte (off : Offset) (len : Length) :
    unpack (packedByte off.toNat len.toNat) = (off.setWidth 32, len.setWidth 32) := by
  rw [unpack, offsetField_packedByte, lengthField_packedByte]

/-- PACK then UNPACK: operands in range are the zero extensions of two fields, which the packed byte holds. -/
theorem unpack_of_pack {off len : Word} (hoff : off.toNat ≤ 31) (hlen : len.toNat ≤ 7) :
    ∃ p, pack off len = some p ∧ unpack p = (off, len) := by
  have eoff : (off.setWidth 5).setWidth 32 = off :=
    BitVec.setWidth_setWidth_eq_self (BitVec.lt_def.2 (Nat.lt_succ_of_le hoff))
  have elen : (len.setWidth 3).setWidth 32 = len :=
    BitVec.setWidth_setWidth_eq_self (BitVec.lt_def.2 (Nat.lt_succ_of_le hlen))
  rw [← eoff, ← elen]
  exact ⟨_, pack_setWidth _ _, unpack_packedByte _ _⟩

/-- UNPACK then PACK. -/
theorem pack_unpack (p : Byte) : pack (unpack p).1 (unpack p).2 = some p := by
  rw [unpack, pack_setWidth, packedByte_fields]

/-- Settles O4: out of range is DOMAIN, in range the packed byte is the sum; the corner cases are evaluated. -/
theorem packChecksFullWidth : Obligations.PackChecksFullWidth := by
  refine ⟨fun off len => ⟨pack_eq_none, fun hoff hlen => ?_⟩, by decide⟩
  rw [pack_eq_packedByte hoff hlen, packedByte_eq_mul_add _ hlen]

/-- Settles O6, from the two round trips. -/
theorem packingRoundTrip : Obligations.PackingRoundTrip :=
  ⟨fun _ _ => unpack_of_pack, pack_unpack⟩

/-- Settles O5, from the quotient and the remainder by 8; the corner cases are evaluated. -/
theorem unpackIsTotal : Obligations.UnpackIsTotal :=
  ⟨unpack_eq_div_mod, by decide⟩

end Sys2Proof
end

section
/-! E_EMIT (41_encoder.md R129, R130). -/

namespace Sys2Proof.Machine

theorem encStep_emit {s : State} (h : s.enc.ephase = .emit) : encStep s = encEmit s := by
  simp only [encStep, h]

/-- Settles O39: inside the buffers the next state is `emitted s`, whose ETBUF bytes are known index by index. -/
theorem emitAppendsRecord : Obligations.EmitAppendsRecord := by
  intro s hphase hrecord hliteral
  refine ⟨emitted s, (encStep_emit hphase).trans (encEmit_inside hrecord hliteral), ?_, ?_, fun i hpacked hlit => ?_,
    rfl, rfl⟩
  · rw [byteAt_emitted, if_neg (by omega), if_pos rfl, packedByte]
  · rw [byteAt_emitted, if_pos rfl]
  · rw [byteAt_emitted, if_neg hlit, if_neg hpacked]

end Sys2Proof.Machine
end

section
/-! The search of ENCODE_F: what the scan has found after each candidate (41_encoder.md R122 to R125). -/

namespace Sys2Proof.Machine

theorem matchFrom_le (inp : List Byte) (s pos fuel k : Nat) : matchFrom inp s pos fuel k ≤ k + fuel := by
  induction fuel generalizing k with
  | zero => exact Nat.le_refl k
  | succ fuel ih =>
    rw [matchFrom]
    split
    · have := ih (k + 1)
      omega
    · omega

theorem matchLength_le_seven (inp : List Byte) (s pos : Nat) : matchLength inp s pos ≤ 7 :=
  (matchFrom_le inp s pos Config.maxMatch 0).trans_eq (Nat.zero_add _)

/-- `best` is the greatest match of the candidates `lo ≤ c < hi` with the smallest start that reaches it, or length 0 and
start `pos` (R124, R125). -/
structure OldestLongest (inp : List Byte) (pos lo hi : Nat) (best : Nat × Nat) : Prop where
  longest : ∀ c, lo ≤ c → c < hi → matchLength inp c pos ≤ best.1
  oldest : 0 < best.1 → lo ≤ best.2 ∧ best.2 < hi ∧ matchLength inp best.2 pos = best.1 ∧
    ∀ c, lo ≤ c → c < best.2 → matchLength inp c pos < best.1
  noMatch : best.1 = 0 → best.2 = pos

theorem OldestLongest.start (inp : List Byte) (pos lo : Nat) : OldestLongest inp pos lo lo (0, pos) where
  longest _ hlo hhi := absurd hhi (Nat.not_lt.2 hlo)
  oldest h := absurd h (Nat.lt_irrefl 0)
  noMatch _ := rfl

/-- One more candidate: it replaces the best on a strictly greater length only (R124). -/
theorem OldestLongest.next {inp : List Byte} {pos lo hi : Nat} {best : Nat × Nat}
    (h : OldestLongest inp pos lo hi best) (hlo : lo ≤ hi) :
    OldestLongest inp pos lo (hi + 1)
      (if best.1 < matchLength inp hi pos then (matchLength inp hi pos, hi) else best) := by
  split
  case isTrue hlt =>
    have hall : ∀ c, lo ≤ c → c < hi → matchLength inp c pos < matchLength inp hi pos := fun c h1 h2 =>
      (h.longest c h1 h2).trans_lt hlt
    refine ⟨fun c h1 h2 => ?_, fun _ => ⟨hlo, hi.lt_succ_self, rfl, hall⟩, fun h0 => ?_⟩
    · rcases Nat.lt_succ_iff_lt_or_eq.1 h2 with h2 | rfl
      · exact (hall c h1 h2).le
      · exact Nat.le_refl _
    · exact absurd h0 (Nat.zero_lt_of_lt hlt).ne'
  case isFalse hle =>
    refine ⟨fun c h1 h2 => ?_, fun h0 => ?_, h.noMatch⟩
    · rcases Nat.lt_succ_iff_lt_or_eq.1 h2 with h2 | rfl
      · exact h.longest c h1 h2
      · exact Nat.not_lt.1 hle
    · obtain ⟨h1, h2, h3⟩ := h.oldest h0
      exact ⟨h1, Nat.lt_succ_of_lt h2, h3⟩

theorem scanFrom_oldestLongest {inp : List Byte} {pos lo : Nat} (count : Nat) {s : Nat} {best : Nat × Nat}
    (h : OldestLongest inp pos lo s best) (hlo : lo ≤ s) :
    OldestLongest inp pos lo (s + count) (scanFrom inp pos count s best) := by
  induction count generalizing s best with
  | zero => exact h
  | succ count ih =>
    rw [scanFrom, Nat.add_comm count 1, ← Nat.add_assoc]
    exact ih (h.next hlo) (Nat.le_succ_of_le hlo)

/-- The search goes over the whole window (R122). -/
theorem bestMatch_oldestLongest (inp : List Byte) (pos : Nat) :
    OldestLongest inp pos (pos - 31) pos (bestMatch inp pos) := by
  have h := scanFrom_oldestLongest (pos - (pos - 31)) (.start inp pos (pos - 31)) (Nat.le_refl _)
  rwa [Nat.add_sub_cancel' (Nat.sub_le pos 31)] at h

/-- Settles O48: the scan of the window keeps `OldestLongest`. -/
theorem searchTakesOldestLongest : Obligations.SearchTakesOldestLongest := fun inp pos =>
  let h := bestMatch_oldestLongest inp pos
  ⟨h.longest, h.oldest, h.noMatch⟩

theorem bestMatch_le_seven (inp : List Byte) (pos : Nat) : (bestMatch inp pos).1 ≤ 7 := by
  rcases Nat.eq_zero_or_pos (bestMatch inp pos).1 with h0 | h0
  · omega
  · obtain ⟨-, -, h, -⟩ := (bestMatch_oldestLongest inp pos).oldest h0
    exact h ▸ matchLength_le_seven inp _ pos

end Sys2Proof.Machine
end

section
/-! The token of a cursor (41_encoder.md R126, R127, R129, R137). -/

namespace Sys2Proof.Machine

theorem clampLength_le {n pos : Nat} (bestLen : Nat) (h : pos < n) : clampLength n pos bestLen ≤ bestLen := by
  unfold clampLength
  split <;> omega

/-- One literal byte remains after the clamped length (R126). -/
theorem add_clampLength_lt {n pos : Nat} (bestLen : Nat) (h : pos < n) : pos + clampLength n pos bestLen < n := by
  unfold clampLength
  split <;> omega

theorem tokenAt_len (inp : List Byte) (pos : Nat) :
    (tokenAt inp pos).len = clampLength inp.length pos (bestMatch inp pos).1 := rfl

theorem tokenAt_off (inp : List Byte) (pos : Nat) :
    (tokenAt inp pos).off = if (tokenAt inp pos).len = 0 then 0 else pos - (bestMatch inp pos).2 := rfl

theorem tokenAt_lit (inp : List Byte) (pos : Nat) :
    (tokenAt inp pos).lit = inp.getD (pos + (tokenAt inp pos).len) 0 := rfl

/-- What R137 says of the token emitted at cursor `pos`. -/
structure CanonicalAt (inp : List Byte) (pos : Nat) (t : Token) : Prop where
  cap : t.len ≤ 7
  inside : pos + t.len < inp.length
  offZero : t.off = 0 ↔ t.len = 0
  window : 0 < t.len → 1 ≤ t.off ∧ t.off ≤ min 31 pos
  literal : inp[pos + t.len]? = some t.lit

/-- A token that copies has its source in the window before the cursor (R127). -/
theorem tokenAt_window {inp : List Byte} {pos : Nat} (h : pos < inp.length) (hlen : 0 < (tokenAt inp pos).len) :
    1 ≤ (tokenAt inp pos).off ∧ (tokenAt inp pos).off ≤ min 31 pos := by
  have hbest : 0 < (bestMatch inp pos).1 := hlen.trans_le (clampLength_le _ h)
  obtain ⟨hlow, hhigh, -⟩ := (bestMatch_oldestLongest inp pos).oldest hbest
  rw [tokenAt_off, if_neg hlen.ne']
  omega

theorem tokenAt_canonical {inp : List Byte} {pos : Nat} (h : pos < inp.length) :
    CanonicalAt inp pos (tokenAt inp pos) := by
  have hinside : pos + (tokenAt inp pos).len < inp.length := add_clampLength_lt _ h
  refine ⟨(clampLength_le _ h).trans (bestMatch_le_seven inp pos), hinside, ⟨fun h0 => ?_, fun h0 => ?_⟩,
    tokenAt_window h, ?_⟩
  · by_contra hlen
    obtain ⟨hoff, -⟩ := tokenAt_window h (Nat.pos_of_ne_zero hlen)
    omega
  · rw [tokenAt_off, if_pos h0]
  · rw [tokenAt_lit, List.getD_eq_getElem _ _ hinside, List.getElem?_eq_getElem hinside]

/-- Every length and offset passes the check of PACK (R137, R141). -/
theorem CanonicalAt.inRange {inp : List Byte} {pos : Nat} {t : Token} (h : CanonicalAt inp pos t) :
    ¬ (31 < t.off ∨ 7 < t.len) := by
  have hcap := h.cap
  have hoff : t.off ≤ 31 := by
    rcases Nat.eq_zero_or_pos t.len with h0 | h0
    · rw [h.offZero.2 h0]
      omega
    · exact (h.window h0).2.trans (Nat.min_le_left 31 pos)
  omega

end Sys2Proof.Machine
end

section
/-! The loop of ENCODE_F (41_encoder.md R131 to R133, R137 to R141). -/

namespace Sys2Proof.Machine

/-- `EncodesFrom inp pos T`: the tokens `T` are those of the cursors from `pos` on, up to the end of the input
(R131, R132). -/
inductive EncodesFrom (inp : List Byte) : Nat → List Token → Prop
  | done : EncodesFrom inp inp.length []
  | token {pos : Nat} {T : List Token} (h : pos < inp.length)
      (rest : EncodesFrom inp (pos + (tokenAt inp pos).len + 1) T) : EncodesFrom inp pos (tokenAt inp pos :: T)

/-- Enough fuel for one token a byte runs the loop to the end of the input, and the check never fails (R141). -/
theorem encodeFrom_encodesFrom {inp : List Byte} (fuel : Nat) {pos : Nat} (hpos : pos ≤ inp.length)
    (hfuel : inp.length ≤ pos + fuel) : ∃ T, encodeFrom inp fuel pos = .ok T ∧ EncodesFrom inp pos T := by
  induction fuel generalizing pos with
  | zero =>
    obtain rfl : pos = inp.length := by omega
    exact ⟨[], rfl, .done⟩
  | succ fuel ih =>
    rcases hpos.lt_or_eq with hlt | rfl
    · have hcanon := tokenAt_canonical hlt
      have hinside := hcanon.inside
      obtain ⟨T, hT, hrest⟩ := ih (pos := pos + (tokenAt inp pos).len + 1) (by omega) (by omega)
      refine ⟨tokenAt inp pos :: T, ?_, .token hlt hrest⟩
      simp only [encodeFrom, if_pos hlt, if_neg hcanon.inRange, hT, EncResult.cons]
    · exact ⟨[], by rw [encodeFrom, if_neg (Nat.lt_irrefl _)], .done⟩

theorem encodeF_encodesFrom (inp : List Byte) : ∃ T, encodeF inp = .ok T ∧ EncodesFrom inp 0 T :=
  encodeFrom_encodesFrom inp.length (Nat.zero_le _) (Nat.zero_add _).ge

theorem encodesFrom_of_encodeF {inp : List Byte} {T : List Token} (h : encodeF inp = .ok T) : EncodesFrom inp 0 T := by
  obtain ⟨T', hT', hfrom⟩ := encodeF_encodesFrom inp
  obtain rfl : T' = T := EncResult.ok.inj (hT'.symm.trans h)
  exact hfrom

/-- Settles O51, from the run of the loop. -/
theorem encodeNeverDomain : Obligations.EncodeNeverDomain := fun inp =>
  let ⟨T, hT, _⟩ := encodeF_encodesFrom inp
  ⟨T, hT⟩

/-- The `i`-th token is that of the cursor its predecessors sum to, and the cursor is inside the input (R131). -/
theorem EncodesFrom.getElem?_eq {inp : List Byte} {pos : Nat} {T : List Token} (h : EncodesFrom inp pos T) {i : Nat}
    {tok : Token} (hi : T[i]? = some tok) :
    pos + ((T.take i).map fun t => t.len + 1).sum < inp.length ∧
    tok = tokenAt inp (pos + ((T.take i).map fun t => t.len + 1).sum) := by
  induction h generalizing i with
  | done => simp at hi
  | token hlt rest ih =>
    cases i with
    | zero => simpa [hlt] using hi.symm
    | succ i => simpa [Nat.add_assoc] using ih hi

/-- Settles O49: each token is `tokenAt` its cursor, which is canonical. -/
theorem emittedTokensAreCanonical : Obligations.EmittedTokensAreCanonical := by
  intro inp T hT i tok hi pos
  obtain ⟨hlt, htok⟩ := (encodesFrom_of_encodeF hT).getElem?_eq hi
  rw [Nat.zero_add] at hlt htok
  have h : CanonicalAt inp pos tok := htok ▸ tokenAt_canonical hlt
  exact ⟨h.cap, h.inside, h.offZero, h.window, h.literal⟩

/-- The cursor ends at the end of the input (R131, R132). -/
theorem EncodesFrom.add_sum {inp : List Byte} {pos : Nat} {T : List Token} (h : EncodesFrom inp pos T) :
    pos + (T.map fun t => t.len + 1).sum = inp.length := by
  induction h with
  | done => rfl
  | token hlt rest ih =>
    rw [List.map_cons, List.sum_cons]
    omega

/-- Each token covers at least one byte (R131). -/
theorem length_le_sum_covered (T : List Token) : T.length ≤ (T.map fun t => t.len + 1).sum := by
  have h := List.length_le_sum_of_one_le (T.map fun t => t.len + 1) (by simp)
  rwa [List.length_map] at h

/-- The literal of the last token is the last byte of the input (R140). -/
theorem EncodesFrom.getLast?_lit {inp : List Byte} {pos : Nat} {T : List Token} (h : EncodesFrom inp pos T)
    (hpos : pos < inp.length) : (T.getLast?.map fun t => t.lit) = inp.getLast? := by
  induction h with
  | done => exact absurd hpos (Nat.lt_irrefl _)
  | @token pos T hlt rest ih =>
    cases T with
    | nil =>
      have hend : pos + (tokenAt inp pos).len + 1 = inp.length := rest.add_sum
      rw [List.getLast?_eq_getElem? (l := inp), ← hend, Nat.add_sub_cancel, (tokenAt_canonical hlt).literal]
      rfl
    | cons t T =>
      have hmore : pos + (tokenAt inp pos).len + 1 < inp.length := (rest.getElem?_eq (i := 0) rfl).1
      rw [List.getLast?_cons_cons, ih hmore]

theorem length_serialise (T : List Token) : (serialise T).length = 2 * T.length := by
  induction T with
  | nil => rfl
  | cons t T ih =>
    rw [serialise, List.length_append, ih, List.length_cons]
    show 2 + 2 * T.length = _
    omega

/-- Settles O50, from the sum over the tokens and the last token's literal. -/
theorem tokensCoverInput : Obligations.TokensCoverInput := by
  intro inp T hT
  have hfrom := encodesFrom_of_encodeF hT
  have hsum : (T.map fun t => t.len + 1).sum = inp.length := (Nat.zero_add _).symm.trans hfrom.add_sum
  have hcount : T.length ≤ inp.length := hsum ▸ length_le_sum_covered T
  have hempty : T.length = 0 ↔ inp.length = 0 := by
    refine ⟨fun h => ?_, fun h => by omega⟩
    rw [← hsum, List.eq_nil_of_length_eq_zero h]
    rfl
  refine ⟨hsum, hcount, hempty, by rw [length_serialise]; omega, ?_⟩
  rcases Nat.eq_zero_or_pos inp.length with h0 | h0
  · rw [List.eq_nil_of_length_eq_zero h0, List.eq_nil_of_length_eq_zero (hempty.2 h0)]
    rfl
  · exact hfrom.getLast?_lit h0

end Sys2Proof.Machine
end

section
/-! The round trip: decoding the records of ENCODE_F's tokens (42_decoder.md R179). -/

namespace Sys2Proof

theorem toNat_packedByte {off len : Nat} (hoff : off ≤ 31) (hlen : len ≤ 7) :
    (packedByte off len).toNat = 8 * off + len := by
  rw [packedByte_eq_mul_add off hlen, BitVec.toNat_ofNat, Nat.mod_eq_of_lt (by omega)]

theorem toNat_offsetField_packedByte {off len : Nat} (hoff : off ≤ 31) (hlen : len ≤ 7) :
    (offsetField (packedByte off len)).toNat = off := by
  rw [toNat_offsetField, toNat_packedByte hoff hlen]
  omega

theorem toNat_lengthField_packedByte {off len : Nat} (hoff : off ≤ 31) (hlen : len ≤ 7) :
    (lengthField (packedByte off len)).toNat = len := by
  rw [toNat_lengthField, toNat_packedByte hoff hlen]
  omega

end Sys2Proof

namespace Sys2Proof.Machine

/-- Every byte that ML counts is equal in the candidate and at the cursor (R123). -/
theorem matchFrom_equal {inp : List Byte} {s pos fuel k j : Nat} (hk : k ≤ j)
    (hj : j < matchFrom inp s pos fuel k) : inp.getD (s + j) 0 = inp.getD (pos + j) 0 := by
  induction fuel generalizing k with
  | zero => exact absurd hj (Nat.not_lt.2 hk)
  | succ fuel ih =>
    rw [matchFrom] at hj
    split at hj
    case isTrue hequal =>
      rcases hk.eq_or_lt with rfl | hk
      · exact hequal.2
      · exact ih hk hj
    case isFalse => exact absurd hj (Nat.not_lt.2 hk)

/-- Each byte a token copies is the one `off` before it in the input (R123, R127). -/
theorem tokenAt_copies {inp : List Byte} {pos j : Nat} (h : pos < inp.length) (hj : j < (tokenAt inp pos).len) :
    inp.getD (pos + j - (tokenAt inp pos).off) 0 = inp.getD (pos + j) 0 := by
  have hbest : j < (bestMatch inp pos).1 := hj.trans_le (clampLength_le _ h)
  obtain ⟨-, hbefore, hmatch, -⟩ := (bestMatch_oldestLongest inp pos).oldest (Nat.zero_lt_of_lt hbest)
  rw [← hmatch] at hbest
  have hsource : pos + j - (tokenAt inp pos).off = (bestMatch inp pos).2 + j := by
    rw [tokenAt_off, if_neg (Nat.ne_zero_of_lt hj)]
    omega
  rw [hsource]
  exact matchFrom_equal (Nat.zero_le j) hbest

theorem take_succ_eq_append_getD {inp : List Byte} {n : Nat} (h : n < inp.length) :
    inp.take (n + 1) = inp.take n ++ [inp.getD n 0] := by
  rw [List.take_succ_eq_append_getElem h, List.getD_eq_getElem _ _ h]

/-- A replay whose source bytes are those of the input rebuilds the input (R166). -/
theorem replay_take {inp : List Byte} {off : Nat} (k : Nat) {pos : Nat} (hoff : 0 < k → 1 ≤ off ∧ off ≤ pos)
    (hinside : pos + k ≤ inp.length)
    (hcopy : ∀ j, j < k → inp.getD (pos + j - off) 0 = inp.getD (pos + j) 0) :
    replay off k (inp.take pos) = inp.take (pos + k) := by
  induction k generalizing pos with
  | zero => rfl
  | succ k ih =>
    obtain ⟨hlow, hhigh⟩ := hoff k.succ_pos
    have hlength : (inp.take pos).length = pos := List.length_take_of_le (by omega)
    have hsource : (inp.take pos).getD (pos - off) 0 = inp.getD pos 0 := by
      rw [List.getD_eq_getElem?_getD, List.getElem?_take_of_lt (by omega), ← List.getD_eq_getElem?_getD]
      exact hcopy 0 k.succ_pos
    rw [replay, hlength, hsource, ← take_succ_eq_append_getD (by omega),
      ih (fun _ => ⟨hlow, by omega⟩) (by omega), Nat.add_right_comm, Nat.add_assoc]
    intro j hj
    rw [Nat.add_right_comm, Nat.add_assoc]
    exact hcopy (j + 1) (Nat.succ_lt_succ hj)

/-- A record that passes both checks: the replay, then the literal, then the rest of the stream (R103, R174). -/
theorem decodeFrom_record {off len : Nat} {lit : Byte} {rest : List Byte} {t : Nat} {out : List Byte}
    (hoff : off ≤ 31) (hlen : len ≤ 7) (hhistory : off ≤ out.length) (hzero : off = 0 → len = 0) :
    decodeFrom (recordBytes off len lit ++ rest) t out = decodeFrom rest (t + 1) (replay off len out ++ [lit]) := by
  have hcheck : ¬ (off = 0 ∧ 0 < len) := fun h => h.2.ne' (hzero h.1)
  rw [recordBytes, List.cons_append, List.cons_append, List.nil_append, decodeFrom,
    toNat_offsetField_packedByte hoff hlen, toNat_lengthField_packedByte hoff hlen, if_neg (Nat.not_lt.2 hhistory),
    if_neg hcheck]

/-- The history a token asks for is there (R137). -/
theorem CanonicalAt.off_le {inp : List Byte} {pos : Nat} {t : Token} (h : CanonicalAt inp pos t) :
    t.off ≤ min 31 pos := by
  rcases Nat.eq_zero_or_pos t.len with h0 | h0
  · rw [h.offZero.2 h0]
    exact Nat.zero_le _
  · exact (h.window h0).2

/-- One token of ENCODE_F takes the decoder from the input up to its cursor to the input up to the next (R131, R174). -/
theorem decodeFrom_tokenAt {inp : List Byte} {pos : Nat} {tok : Token} (htok : tok = tokenAt inp pos)
    (h : pos < inp.length) (rest : List Byte) (t : Nat) :
    decodeFrom (recordBytes tok.off tok.len tok.lit ++ rest) t (inp.take pos) =
      decodeFrom rest (t + 1) (inp.take (pos + tok.len + 1)) := by
  subst htok
  have hcanon := tokenAt_canonical h
  obtain ⟨hwindow, hhistory⟩ := Nat.le_min.1 hcanon.off_le
  have hreplay := replay_take (tokenAt inp pos).len (fun h0 => ⟨(hcanon.window h0).1, hhistory⟩) hcanon.inside.le
    fun j hj => tokenAt_copies h hj
  rw [decodeFrom_record hwindow hcanon.cap (by rwa [List.length_take_of_le h.le]) hcanon.offZero.1, hreplay,
    take_succ_eq_append_getD hcanon.inside, ← tokenAt_lit]

/-- The decoder, at the records of the cursors from `pos` on with the input up to `pos`, ends with the whole input. -/
theorem EncodesFrom.decodeFrom_serialise {inp : List Byte} {pos : Nat} {T : List Token} (h : EncodesFrom inp pos T)
    (t : Nat) : decodeFrom (serialise T) t (inp.take pos) = .ok inp := by
  induction h generalizing t with
  | done => rw [List.take_length]; rfl
  | token hlt rest ih => rw [serialise, decodeFrom_tokenAt rfl hlt, ih]

/-- Settles O46, by induction over the tokens of ENCODE_F. -/
theorem roundTripIdentity : Obligations.RoundTripIdentity := by
  intro inp
  obtain ⟨T, hT, hfrom⟩ := encodeF_encodesFrom inp
  have hlength := length_serialise T
  refine ⟨T, hT, hlength, ?_⟩
  rw [decodeF, if_neg (by omega)]
  exact hfrom.decodeFrom_serialise 0

end Sys2Proof.Machine
end

section
/-! The four token classes as one meaning of an offset, a length and a literal (42_decoder.md R163 to R173). -/

namespace Sys2Proof

/-! ### The class of a token, one equation per class (R85) -/

theorem decodeToken_lit0 {p : Byte} (lit : Byte) (hoff : offsetField p = 0) (hlen : lengthField p = 0) :
    decodeToken p lit = .lit0 lit := by
  rw [decodeToken, if_pos hoff, if_pos hlen]

theorem decodeToken_bad0 {p : Byte} (lit : Byte) (hoff : offsetField p = 0) (hlen : lengthField p ≠ 0) :
    decodeToken p lit = .bad0 (lengthField p) lit := by
  rw [decodeToken, if_pos hoff, if_neg hlen]

theorem decodeToken_lito {p : Byte} (lit : Byte) (hoff : offsetField p ≠ 0) (hlen : lengthField p = 0) :
    decodeToken p lit = .lito (offsetField p) lit := by
  rw [decodeToken, if_neg hoff, if_pos hlen]

theorem decodeToken_cpy {p : Byte} (lit : Byte) (hoff : offsetField p ≠ 0) (hlen : lengthField p ≠ 0) :
    decodeToken p lit = .cpy (offsetField p) (lengthField p) lit := by
  rw [decodeToken, if_neg hoff, if_neg hlen]

end Sys2Proof

namespace Sys2Proof.Machine

/-! ### The meanings of the other three classes, as that of CPY -/

/-- LIT0 is the token of offset 0 and length 0: both checks pass and nothing is copied (R169). -/
theorem execLit0_eq_execCpy (lit : Byte) (s : State) : execLit0 lit s = execCpy 0 0 lit s :=
  (checkThen_passes (s := latchToken 0 0 lit s) _ (Nat.zero_le _) fun _ => rfl).symm

/-- LITO copies nothing (R170). -/
theorem execLito_eq_execCpy (off : Offset) (lit : Byte) (s : State) : execLito off lit s = execCpy off 0 lit s := rfl

/-- BAD0 always fails the zero-offset check (R172). -/
theorem execBad0_eq_execCpy {len : Length} (hlen : len ≠ 0) (lit : Byte) (s : State) :
    execBad0 len lit s = execCpy 0 len lit s :=
  (checkThen_zeroCopy (s := latchToken 0 len lit s) _ rfl hlen).symm

/-- Every decoded token means what CPY means with its two fields (R163 to R168). -/
theorem exec_decodeToken (p lit : Byte) (s : State) :
    exec (decodeToken p lit) s = execCpy (offsetField p) (lengthField p) lit s := by
  by_cases hoff : offsetField p = 0
  · by_cases hlen : lengthField p = 0
    · rw [decodeToken_lit0 lit hoff hlen, hoff, hlen]
      exact execLit0_eq_execCpy lit s
    · rw [decodeToken_bad0 lit hoff hlen, hoff]
      exact execBad0_eq_execCpy hlen lit s
  · by_cases hlen : lengthField p = 0
    · rw [decodeToken_lito lit hoff hlen, hlen]
      exact execLito_eq_execCpy _ lit s
    · rw [decodeToken_cpy lit hoff hlen]
      rfl

/-! ### A token that a check rejects -/

/-- The token's fields are latched, then CORRUPT_STREAM is raised: no byte is written (R164, R165, R173). -/
theorem rejected_spec (off : Offset) (len : Length) (lit : Byte) (s : State) :
    TokenFrame s (raiseCorrupt (latchToken off len lit s)) ∧ TokenCorrupt s (raiseCorrupt (latchToken off len lit s)) :=
  ⟨(latchToken_frame off len lit s).trans (raiseCorrupt_frame _), by constructor <;> rfl⟩

/-- The back-reference check comes first, whatever the length (R164). -/
theorem execCpy_tooFar {off : Offset} {s : State} (len : Length) (lit : Byte) (h : s.dec.osize.toNat < off.toNat) :
    execCpy off len lit s = .next (raiseCorrupt (latchToken off len lit s)) :=
  checkThen_tooFar _ h

/-! ### A token that passes the checks -/

/-- The state after D_CHECK of a token that passes it (R175). -/
def checked (off : Offset) (len : Length) (lit : Byte) (s : State) : State :=
  setDPhase (if len = 0 then .lit else .copy) (latchToken off len lit s)

theorem checked_frame (off : Offset) (len : Length) (lit : Byte) (s : State) : TokenFrame s (checked off len lit s) :=
  (latchToken_frame off len lit s).trans (setDPhase_frame _ _)

theorem checked_byteAt (off : Offset) (len : Length) (lit : Byte) (s : State) (b : Buf) (i : Nat) :
    byteAt (checked off len lit s) b i = byteAt s b i := by
  rw [checked, setDPhase_byteAt, latchToken_byteAt]

/-- A check rejects the token, or its copy and its literal follow (R164, R165). -/
theorem execCpy_cases (off : Offset) (len : Length) (lit : Byte) (s : State) :
    execCpy off len lit s = .next (raiseCorrupt (latchToken off len lit s)) ∨
    (execCpy off len lit s = andThen (copyRun len.toNat (checked off len lit s)) decLit ∧
      off.toNat ≤ s.dec.osize.toNat ∧ (off = 0 → len = 0)) :=
  (checkThen_cases (latchToken off len lit s) _).imp And.left id

theorem execCpy_checked {off : Offset} {len : Length} {s : State} (lit : Byte) (hzero : off = 0 → len = 0)
    (hhistory : off.toNat ≤ s.dec.osize.toNat) :
    execCpy off len lit s = andThen (copyRun len.toNat (checked off len lit s)) decLit :=
  checkThen_passes (s := latchToken off len lit s) _ hhistory hzero

/-- What a token that completes does: the copied bytes in forward order, its literal, and nothing else (R166 to R168). -/
structure TokenAppends (off : Offset) (len : Length) (lit : Byte) (s t : State) : Prop where
  frame : TokenFrame s t
  completes : TokenCompletes s t
  osize : t.dec.osize.toNat = s.dec.osize.toNat + len.toNat + 1
  doff : t.dec.doff = off
  dlen : t.dec.dlen = len
  dlit : t.dec.dlit = lit
  dk : t.dec.dk = len
  replayed : ∀ j, j < len.toNat →
    byteAt t .obuf (s.dec.osize.toNat + j) = byteAt t .obuf (s.dec.osize.toNat + j - off.toNat)
  literal : byteAt t .obuf (s.dec.osize.toNat + len.toNat) = lit
  kept : ∀ i, i < s.dec.osize.toNat ∨ s.dec.osize.toNat + len.toNat < i → byteAt t .obuf i = byteAt s .obuf i

/-- A token completes from `s` as it does from a state `u` inside the same token. -/
theorem TokenCompletes.of_inside {s u t : State} (c : TokenCompletes u t) (frame : TokenFrame s u)
    (state : u.state = s.state) (errCode : u.errCode = s.errCode) (errInfo : u.errInfo = s.errInfo)
    (decOutLen : u.decOutLen = s.decOutLen) (tidx : u.dec.tidx = s.dec.tidx) : TokenCompletes s t := by
  obtain ⟨index, code, info, more, last⟩ := c
  rw [tidx, frame.latched] at more last
  exact ⟨by rw [index, tidx], code.trans errCode, info.trans errInfo, by rwa [state, decOutLen] at more, last⟩

theorem CopyDone.zero (s : State) : CopyDone 0 s s := by
  refine ⟨.refl s, rfl, rfl, rfl, rfl, rfl, rfl, rfl, rfl, rfl, rfl, rfl, fun j hj => ?_, fun _ _ => rfl⟩
  exact absurd hj (Nat.not_lt_zero j)

/-- The copy of a token that passed the checks (R166): with no byte to copy the offset plays no part. -/
theorem copyRun_checked {k : Nat} {s : State} (hc : CapsLegal s) (hzero : s.dec.doff.toNat = 0 → k = 0)
    (hhistory : s.dec.doff.toNat ≤ s.dec.osize.toNat) (hroom : s.dec.osize.toNat + k ≤ 4 * s.capTin)
    (hk : s.dec.dk.toNat + k ≤ 7) : ∃ t, copyRun k s = .next t ∧ CopyDone k s t := by
  rcases Nat.eq_zero_or_pos s.dec.doff.toNat with h0 | hpos
  · obtain rfl := hzero h0
    exact ⟨s, rfl, .zero s⟩
  · exact copyRun_spec k s hc hpos hhistory hroom hk

/-- A token with its history in the output, its offset not 0 if it copies, and room in OBUF completes (R164 to R168). -/
theorem execCpy_appends {off : Offset} {len : Length} {s : State} (lit : Byte) (hc : CapsLegal s)
    (hzero : off = 0 → len = 0) (hhistory : off.toNat ≤ s.dec.osize.toNat)
    (hroom : s.dec.osize.toNat + len.toNat < 4 * s.capTin) :
    ∃ t, execCpy off len lit s = .next t ∧ TokenAppends off len lit s t := by
  have hzero' : off.toNat = 0 → len.toNat = 0 := fun h => toNat_eq_zero.2 (hzero (toNat_eq_zero.1 h))
  have hlen : 0 + len.toNat ≤ 7 := by omega
  obtain ⟨v, hcopy, d⟩ := copyRun_checked (s := checked off len lit s) ((checked_frame off len lit s).caps hc)
    hzero' hhistory hroom.le hlen
  have hosize : v.dec.osize.toNat = s.dec.osize.toNat + len.toNat := d.osize
  have hframe : TokenFrame s v := (checked_frame off len lit s).trans d.frame
  obtain ⟨t, hlit, f, c, osize, doff, dlen, dlit, dk, new, old⟩ :=
    decLit_spec (s := v) (hframe.caps hc) (by rwa [hosize, hframe.capTin])
  rw [hosize] at osize new old
  refine ⟨t, by rw [execCpy_checked lit hzero hhistory, hcopy, andThen_next, hlit], ?_⟩
  exact {
    frame := hframe.trans f
    completes := c.of_inside hframe d.state d.errCode d.errInfo d.decOutLen d.tidx
    osize := osize
    doff := doff.trans d.doff
    dlen := dlen.trans d.dlen
    dlit := dlit.trans d.dlit
    dk := dk.trans (BitVec.eq_of_toNat_eq (d.dk.trans (Nat.zero_add _)))
    replayed := fun j hj => by
      rw [old _ (by omega), old _ (by omega)]
      exact d.replayed j hj
    literal := new.trans d.dlit
    kept := fun i hi => by
      rw [old i (by omega), ← checked_byteAt off len lit s]
      exact d.kept i (hi.imp_right le_of_lt) }

/-- A token without a copy appends its literal and nothing else (R169, R170). -/
theorem TokenAppends.literal_only {off : Offset} {lit : Byte} {s t : State} (h : TokenAppends off 0 lit s t) :
    TokenFrame s t ∧ TokenCompletes s t ∧ t.dec.osize.toNat = s.dec.osize.toNat + 1 ∧ t.dec.doff = off ∧
      t.dec.dlen = 0 ∧ t.dec.dlit = lit ∧ t.dec.dk = 0 ∧ byteAt t .obuf s.dec.osize.toNat = lit ∧
      ∀ i, i ≠ s.dec.osize.toNat → byteAt t .obuf i = byteAt s .obuf i :=
  ⟨h.frame, h.completes, h.osize, h.doff, h.dlen, h.dlit, h.dk, h.literal, fun i hi => h.kept i (lt_or_gt_of_ne hi)⟩

/-! ### The statements about one class -/

/-- Settles O12: LIT0 is the token of offset 0 and length 0, and completes as such. -/
theorem lit0AppendsLiteral : Obligations.Lit0AppendsLiteral := by
  intro lit
  refine ⟨decodeToken_lit0 lit (by decide) (by decide), fun s hc hroom => ?_⟩
  obtain ⟨t, ht, h⟩ := execCpy_appends (off := 0) (len := 0) lit hc (fun _ => rfl) (Nat.zero_le _) hroom
  exact ⟨t, (execLit0_eq_execCpy lit s).trans ht, h.literal_only⟩

/-- Settles O13: LITO is the token of length 0, which a check rejects or which completes as such. -/
theorem litoAppendsLiteral : Obligations.LitoAppendsLiteral := by
  refine ⟨fun p lit hlen hoff => decodeToken_lito lit hoff hlen,
    fun s off lit => ⟨fun hfar => ?_, fun hc hroom hhistory => ?_⟩⟩
  · exact ⟨_, execCpy_tooFar 0 lit hfar, rejected_spec off 0 lit s⟩
  · obtain ⟨t, ht, h⟩ := execCpy_appends (len := 0) lit hc (fun _ => rfl) hhistory hroom
    exact ⟨t, ht, h.literal_only⟩

/-- Settles O14, from the copy replay and the literal after it. -/
theorem cpyReplaysThenAppends : Obligations.CpyReplaysThenAppends := by
  refine ⟨fun p lit hlen hoff => decodeToken_cpy lit hoff hlen,
    fun s off len lit => ⟨fun hfar => ?_, fun hc hoff hhistory hroom => ?_⟩⟩
  · exact ⟨_, execCpy_tooFar len lit hfar, rejected_spec off len lit s⟩
  · obtain ⟨t, ht, h⟩ := execCpy_appends lit hc (fun h0 => absurd h0 hoff) hhistory hroom
    exact ⟨t, ht, h.frame, h.completes, h.osize, h.doff, h.dlen, h.dlit, h.dk, h.replayed, h.literal, h.kept⟩

/-- Settles O15: BAD0 does nothing but raise CORRUPT_STREAM. -/
theorem bad0RaisesCorruptStream : Obligations.Bad0RaisesCorruptStream :=
  ⟨fun _ lit hlen hoff => decodeToken_bad0 lit hoff hlen, fun s len lit => ⟨_, rfl, rejected_spec 0 len lit s⟩⟩

/-! ### The statements about every token -/

/-- Settles O16, for all four classes at once: the check comes before the copy, and a copy from the whole history starts
at OBUF[0]. -/
theorem offsetBeyondOutputIsCorrupt : Obligations.OffsetBeyondOutputIsCorrupt := by
  intro s p lit
  rw [exec_decodeToken]
  refine ⟨fun hfar => ⟨_, execCpy_tooFar _ lit hfar, rejected_spec _ _ lit s⟩, fun hc hoff hequal hroom => ?_⟩
  obtain ⟨t, ht, h⟩ := execCpy_appends lit hc (fun h0 => absurd h0 hoff) hequal.le hroom
  refine ⟨t, ht, h.completes, fun hlen => ?_⟩
  have hfirst := h.replayed 0 (Nat.pos_of_ne_zero (mt toNat_eq_zero.1 hlen))
  have hhistory : 0 < s.dec.osize.toNat := hequal ▸ Nat.pos_of_ne_zero (mt toNat_eq_zero.1 hoff)
  rw [Nat.add_zero, hequal, Nat.sub_self] at hfirst
  exact hfirst.trans (h.kept 0 (.inl hhistory))

/-- A copy that goes on wrote every one of its bytes inside OBUF (R166). -/
theorem osize_of_copyRun {k : Nat} {s t : State} (hc : CapsLegal s) (h : copyRun k s = .next t) :
    t.dec.osize.toNat = s.dec.osize.toNat + k := by
  induction k generalizing s with
  | zero => cases h; rfl
  | succ k ih =>
    obtain ⟨u, hu, hrest⟩ := andThen_eq_next h
    have hframe : TokenFrame s u := (decCopy_moves hu).1.1
    obtain ⟨hinside, hcopied⟩ := decCopy_eq_next hu
    have hosize : u.dec.osize.toNat = s.dec.osize.toNat + 1 := hcopied ▸ osize_succ hc hinside
    rw [ih (hframe.caps hc) hrest, hosize]
    omega

/-- A token that goes on was rejected with nothing written, or completed (R173). -/
theorem execCpy_eq_next {off : Offset} {len : Length} {lit : Byte} {s t : State} (hc : CapsLegal s)
    (h : execCpy off len lit s = .next t) :
    t = raiseCorrupt (latchToken off len lit s) ∨ TokenAppends off len lit s t := by
  rcases execCpy_cases off len lit s with hreject | ⟨hpass, hhistory, hzero⟩
  · exact .inl (Host.Outcome.next.inj (h.symm.trans hreject))
  · obtain ⟨v, hcopy, hlit⟩ := andThen_eq_next (hpass.symm.trans h)
    have hchecked := checked_frame off len lit s
    have hframe : TokenFrame s v := hchecked.trans (copyRun_moves _ _ _ hcopy).1.1
    have hosize : v.dec.osize.toNat = s.dec.osize.toNat + len.toNat :=
      osize_of_copyRun (s := checked off len lit s) (hchecked.caps hc) hcopy
    have hroom := (decLit_eq_next hlit).1
    rw [hosize, hframe.capTin] at hroom
    obtain ⟨t', ht', happends⟩ := execCpy_appends lit hc hzero hhistory hroom
    obtain rfl : t' = t := Host.Outcome.next.inj (ht'.symm.trans h)
    exact .inr happends

/-- The two ends of a token in the words of R173. -/
theorem token_all_or_nothing {off : Offset} {len : Length} {lit : Byte} {s t : State}
    (h : t = raiseCorrupt (latchToken off len lit s) ∨ TokenAppends off len lit s t) :
    TokenFrame s t ∧
    (TokenCorrupt s t ∨
      TokenCompletes s t ∧ t.dec.osize.toNat = s.dec.osize.toNat + t.dec.dlen.toNat + 1 ∧
        ∀ j, j < s.dec.osize.toNat → byteAt t .obuf j = byteAt s .obuf j) := by
  rcases h with rfl | h
  · obtain ⟨hframe, hcorrupt⟩ := rejected_spec off len lit s
    exact ⟨hframe, .inl hcorrupt⟩
  · exact ⟨h.frame, .inr ⟨h.completes, by rw [h.dlen, h.osize], fun j hj => h.kept j (.inl hj)⟩⟩

/-- Settles O17, by the class of the token; a command is no token. -/
theorem tokenCompletesOrWritesNothing : Obligations.TokenCompletesOrWritesNothing := by
  intro i s t htoken hc h
  cases i with
  | lit0 lit => exact token_all_or_nothing (execCpy_eq_next hc ((execLit0_eq_execCpy lit s).symm.trans h))
  | lito off lit => exact token_all_or_nothing (execCpy_eq_next hc h)
  | cpy off len lit => exact token_all_or_nothing (execCpy_eq_next hc h)
  | bad0 len lit => exact token_all_or_nothing (.inl (Host.Outcome.next.inj h).symm)
  | startEncode | startDecode | clear | illegalCmd => exact absurd htoken Bool.false_ne_true

end Sys2Proof.Machine
end

section
/-! The length of a decoded output (42_decoder.md R177, R178). -/

namespace Sys2Proof.Machine

theorem replay_length (off k : Nat) (out : List Byte) : (replay off k out).length = out.length + k := by
  induction k generalizing out with
  | zero => rfl
  | succ k ih =>
    rw [replay, ih, List.length_append, List.length_singleton]
    omega

/-- A decode that succeeds passed both checks of its first token, and the rest succeeds (R174). -/
theorem decodeFrom_token_eq_ok {p lit : Byte} {rest : List Byte} {t : Nat} {out O : List Byte}
    (h : decodeFrom (p :: lit :: rest) t out = .ok O) :
    decodeFrom rest (t + 1) (replay (offsetField p).toNat (lengthField p).toNat out ++ [lit]) = .ok O := by
  rw [decodeFrom] at h
  split at h
  · cases h
  · split at h
    · cases h
    · exact h

/-- How many bytes the tokens of a stream stand for: the sum of (length + 1) (R177). -/
def tokensLength (tb : List Byte) : Nat :=
  ((List.range (tb.length / 2)).map fun t => (lengthField (tb.getD (2 * t) 0)).toNat + 1).sum

/-- Fewer than two bytes hold no token (R88). -/
theorem tokensLength_short {tb : List Byte} (h : tb.length < 2) : tokensLength tb = 0 := by
  rw [tokensLength, Nat.div_eq_of_lt h]
  rfl

theorem tokensLength_token (p lit : Byte) (rest : List Byte) :
    tokensLength (p :: lit :: rest) = (lengthField p).toNat + 1 + tokensLength rest := by
  have hcount : (p :: lit :: rest).length / 2 = rest.length / 2 + 1 := by
    rw [List.length_cons, List.length_cons]
    omega
  rw [tokensLength, hcount, List.range_succ_eq_map, List.map_cons, List.sum_cons, List.map_map]
  rfl

/-- A token stands for at most eight bytes (R178). -/
theorem tokensLength_le (tb : List Byte) : tokensLength tb ≤ 4 * tb.length := by
  have h : tokensLength tb ≤ tb.length / 2 * 8 := by
    have hsum := List.sum_le_card_nsmul
      ((List.range (tb.length / 2)).map fun t => (lengthField (tb.getD (2 * t) 0)).toNat + 1) 8 fun n hn => by
        obtain ⟨t, -, rfl⟩ := List.mem_map.1 hn
        exact (lengthField (tb.getD (2 * t) 0)).isLt
    rwa [List.length_map, List.length_range] at hsum
  omega

theorem length_of_decodeFrom {tb out O : List Byte} {t : Nat} (h : decodeFrom tb t out = .ok O) :
    O.length = out.length + tokensLength tb := by
  match tb with
  | [] | [_] =>
    cases h
    rw [tokensLength_short (by simp), Nat.add_zero]
  | p :: lit :: rest =>
    have hrest := length_of_decodeFrom (decodeFrom_token_eq_ok h)
    rw [List.length_append, replay_length, List.length_singleton] at hrest
    rw [tokensLength_token]
    omega

/-- Settles O52, by induction over the stream; each token adds its length and its literal. -/
theorem decodedLength : Obligations.DecodedLength := by
  intro tb out h
  rw [decodeF] at h
  split at h
  · cases h
  · have hlength : out.length = tokensLength tb := (length_of_decodeFrom h).trans (Nat.zero_add _)
    exact ⟨hlength, hlength ▸ tokensLength_le tb⟩

end Sys2Proof.Machine
end

section
/-! One step that carries out a host access to a register (10_state.md R41 to R52, 45_control.md R206 to R208). -/

namespace Sys2Proof.Machine

/-! ### The offsets of the window -/

theorem regAt_isSome {off : Nat} (ha : off % 4 = 0) (hwindow : off ≤ 0x3C) : (regAt off).isSome := by
  have hall : ∀ k < 16, (regAt (4 * k)).isSome := by decide
  obtain ⟨k, rfl⟩ := Nat.dvd_of_mod_eq_zero ha
  exact hall k (by omega)

theorem regAt_reserved {off : Nat} (ha : off % 4 = 0) (hlow : 0x28 ≤ off) (hwindow : off ≤ 0x3C) :
    regAt off = some .reserved := by
  have hall : ∀ k < 16, 10 ≤ k → regAt (4 * k) = some .reserved := by decide
  obtain ⟨k, rfl⟩ := Nat.dvd_of_mod_eq_zero ha
  exact hall k (by omega) (by omega)

/-! ### Reads -/

/-- No register shows anything of the host's. -/
@[simp] theorem regValue_host (s : State) (rest : List HostOp) (r : Reg) :
    regValue { s with host := rest } r = regValue s r := by cases r <;> rfl

theorem step_regRead {s : State} {off : Nat} {rest : List HostOp} {r : Reg} (ha : off % 4 = 0)
    (hr : regAt off = some r) (hs : s.host = .regRead off 4 :: rest) :
    step s = .next { s with host := rest, observed := regValue s r :: s.observed } := by
  have hread : step s = hostRegRead off 4 { s with host := rest } := by simp only [step, advance, hs]
  rw [hread, hostRegRead, atRegister_word _ ha hr, regValue_host, observe]

/-- The value read at an offset is that of the one register `q` that stands there. -/
theorem regValue_at (s : State) {off o : Nat} {r : Reg} (q : Reg) (hr : regAt off = some r) (hq : regAt o = some q)
    (h : off = o) : regValue s r = regValue s q := by
  rw [Option.some.inj (hr.symm.trans (h ▸ hq))]

/-- Settles O25: the read answers the value of the register at its offset, which each clause names. -/
theorem registerReadsAreSideEffectFree : Obligations.RegisterReadsAreSideEffectFree := by
  intro s off rest ha hwindow hs
  obtain ⟨r, hr⟩ := Option.isSome_iff_exists.1 (regAt_isSome ha hwindow)
  exact ⟨regValue s r, step_regRead ha hr hs,
    regValue_at s .cmd hr rfl,
    regValue_at s .status hr rfl,
    regValue_at s .errInfo hr rfl,
    regValue_at s .encInLen hr rfl,
    regValue_at s .encTokCount hr rfl,
    regValue_at s .decTokLen hr rfl,
    regValue_at s .decOutLen hr rfl,
    regValue_at s .param hr rfl,
    regValue_at s .capIn hr rfl,
    regValue_at s .capTin hr rfl,
    fun hlow => regValue_at s .reserved hr (regAt_reserved ha hlow hwindow) rfl⟩

/-! ### Writes -/

theorem step_regWrite {s : State} {off : Nat} {v : Word} {rest : List HostOp} {r : Reg} (ha : off % 4 = 0)
    (hr : regAt off = some r) (hs : s.host = .regWrite off 4 v :: rest) :
    step s = writeReg v { s with host := rest } r := by
  have hwrite : step s = hostRegWrite off 4 v { s with host := rest } := by simp only [step, advance, hs]
  rw [hwrite, hostRegWrite, atRegister_word _ ha hr]

/-- The registers a host write does not reach: all but CMD and the two length registers (R207). -/
def readOnlyRegs : List Reg := [.status, .errInfo, .encTokCount, .decOutLen, .param, .capIn, .capTin, .reserved]

theorem writeReg_readOnly (v : Word) (s : State) {r : Reg} (h : r ∈ readOnlyRegs) : writeReg v s r = .next s := by
  fin_cases h <;> rfl

/-- The offsets R207 lists are aligned and hold read-only registers. -/
theorem regAt_readOnly : ∀ off ∈ [0x04, 0x08, 0x10, 0x18, 0x1C, 0x20, 0x24, 0x28, 0x2C, 0x30, 0x34, 0x38, 0x3C],
    off % 4 = 0 ∧ ∃ r ∈ readOnlyRegs, regAt off = some r := by decide

/-- Settles O28: the offset holds a read-only register, whose write is no change. -/
theorem readOnlyWritesIgnored : Obligations.ReadOnlyWritesIgnored := by
  intro s off v rest hoff hs
  obtain ⟨ha, r, hmem, hr⟩ := regAt_readOnly off hoff
  rw [step_regWrite ha hr hs, writeReg_readOnly v _ hmem]

theorem writeEncInLen_free {s : State} (v : Word) (h : s.state ≠ .busy) :
    writeEncInLen v s = { s with encInLen := v } := if_neg h

theorem writeEncInLen_busy {s : State} (v : Word) (h : s.state = .busy) : writeEncInLen v s = s := if_pos h

theorem writeDecTokLen_free {s : State} (v : Word) (h : s.state ≠ .busy) :
    writeDecTokLen v s = { s with decTokLen := v } := if_neg h

theorem writeDecTokLen_busy {s : State} (v : Word) (h : s.state = .busy) : writeDecTokLen v s = s := if_pos h

/-- Settles O29, from what the write of each length register does outside BUSY and while BUSY. -/
theorem lengthRegisterWrites : Obligations.LengthRegisterWrites := by
  refine fun s v rest => ⟨fun hs => ?_, fun hs => ?_⟩
  · have hstep : step s = .next (writeEncInLen v { s with host := rest }) :=
      step_regWrite (r := .encInLen) rfl rfl hs
    exact ⟨fun hfree => hstep.trans (congrArg Host.Outcome.next (writeEncInLen_free v hfree)),
      fun hbusy => hstep.trans (congrArg Host.Outcome.next (writeEncInLen_busy v hbusy))⟩
  · have hstep : step s = .next (writeDecTokLen v { s with host := rest }) :=
      step_regWrite (r := .decTokLen) rfl rfl hs
    exact ⟨fun hfree => hstep.trans (congrArg Host.Outcome.next (writeDecTokLen_free v hfree)),
      fun hbusy => hstep.trans (congrArg Host.Outcome.next (writeDecTokLen_busy v hbusy))⟩

end Sys2Proof.Machine
end

section
/-! The four commands, one equation per branch (45_control.md R200 to R205). -/

namespace Sys2Proof.Machine

/-! ### START_ENCODE (R201) -/

theorem exec_startEncode_tooLong {s : State} (hfree : s.state ≠ .busy) (hlen : s.capIn < s.encInLen.toNat) :
    exec .startEncode s = .next (encLengthError s) := by
  rw [exec, execStartEncode, unlessBusy_free _ hfree, if_pos hlen]

theorem exec_startEncode_accepted {s : State} (hfree : s.state ≠ .busy) (hlen : s.encInLen.toNat ≤ s.capIn) :
    exec .startEncode s = .next (startEncoder (acceptStatus .encode s)) := by
  rw [exec, execStartEncode, unlessBusy_free _ hfree, if_neg (Nat.not_lt.2 hlen)]

theorem startEncoder_nonempty {s : State} (h : s.encInLen ≠ 0) :
    startEncoder s = { s with
      encTokCount := 0
      enc := { s.enc with n := s.encInLen, pos := 0, tcount := 0, ephase := .search } } :=
  if_neg h

theorem startEncoder_empty {s : State} (h : s.encInLen = 0) :
    startEncoder s = { s with
      state := .done, encTokCount := 0
      enc := { s.enc with n := 0, pos := 0, tcount := 0 } } := by
  rw [startEncoder, if_pos h, h]
  rfl

/-- Settles O19: the capacity check, then an accepted start by whether the input is empty. -/
theorem startEncodeCommand : Obligations.StartEncodeCommand := by
  refine fun s hfree => ⟨exec_startEncode_tooLong hfree, fun hfits hne => ?_, fun hempty => ?_⟩
  · exact (exec_startEncode_accepted hfree hfits).trans (congrArg Host.Outcome.next (startEncoder_nonempty hne))
  · have hfits : s.encInLen.toNat ≤ s.capIn := by simp [hempty]
    exact (exec_startEncode_accepted hfree hfits).trans (congrArg Host.Outcome.next (startEncoder_empty hempty))

/-! ### START_DECODE (R202, R223) -/

theorem exec_startDecode_tooLong {s : State} (hfree : s.state ≠ .busy) (hlen : s.capTin < s.decTokLen.toNat) :
    exec .startDecode s = .next (decLengthError s) := by
  rw [exec, execStartDecode, unlessBusy_free _ hfree, if_pos hlen]

theorem exec_startDecode_accepted {s : State} (hfree : s.state ≠ .busy) (hlen : s.decTokLen.toNat ≤ s.capTin) :
    exec .startDecode s = .next (startDecoder (acceptStatus .decode s)) := by
  rw [exec, execStartDecode, unlessBusy_free _ hfree, if_neg (Nat.not_lt.2 hlen)]

theorem startDecoder_odd {s : State} (h : s.decTokLen.toNat % 2 = 1) :
    startDecoder s = { s with
      state := .error, errCode := .truncatedTokenStream, errInfo := s.decTokLen, decOutLen := 0
      dec := { s.dec with l := s.decTokLen, tidx := 0, osize := 0 } } :=
  if_pos h

theorem startDecoder_even {s : State} (heven : s.decTokLen.toNat % 2 = 0) (hne : s.decTokLen ≠ 0) :
    startDecoder s = { s with
      decOutLen := 0
      dec := { s.dec with l := s.decTokLen, tidx := 0, osize := 0, dphase := .fetch } } := by
  rw [startDecoder, if_neg (by omega), if_neg hne]
  rfl

theorem startDecoder_empty {s : State} (h : s.decTokLen = 0) :
    startDecoder s = { s with
      state := .done, decOutLen := 0
      dec := { s.dec with l := 0, tidx := 0, osize := 0 } } := by
  rw [startDecoder, if_neg (by simp [h]), if_pos h, h]
  rfl

/-- Settles O20: the capacity check, then an accepted start by the parity of the length and whether it is 0. -/
theorem startDecodeCommand : Obligations.StartDecodeCommand := by
  refine fun s hfree => ⟨exec_startDecode_tooLong hfree, fun hfits hodd => ?_,
    fun hfits heven hne => ?_, fun hempty => ?_⟩
  · exact (exec_startDecode_accepted hfree hfits).trans (congrArg Host.Outcome.next (startDecoder_odd hodd))
  · exact (exec_startDecode_accepted hfree hfits).trans (congrArg Host.Outcome.next (startDecoder_even heven hne))
  · have hfits : s.decTokLen.toNat ≤ s.capTin := by simp [hempty]
    exact (exec_startDecode_accepted hfree hfits).trans (congrArg Host.Outcome.next (startDecoder_empty hempty))

/-! ### CLEAR, the illegal commands, and any command while BUSY (R203 to R205) -/

/-- Settles O22: outside BUSY the command is `clearStatus`. -/
theorem clearResetsStatusOnly : Obligations.ClearResetsStatusOnly := fun _ => unlessBusy_free _

/-- Settles O23: the decoder takes every other value as illegal, and outside BUSY the one error entry records it. -/
theorem illegalCommandRecordsValue : Obligations.IllegalCommandRecordsValue := fun _ _ hfree h1 h2 h3 =>
  ⟨decodeCommand_of_ne h1 h2 h3, unlessBusy_free _ hfree, rfl⟩

/-- Settles O24, from the frame of every command. -/
theorem commandsIgnoredWhileBusy : Obligations.CommandsIgnoredWhileBusy := by
  intro s v hbusy
  obtain ⟨t, ht, hframe⟩ := command_completes v s
  rw [ht, hframe.busy hbusy]

end Sys2Proof.Machine
end

section
/-! A START the host writes whose length is above the capacity (60_exceptions.md R224). -/

namespace Sys2Proof.Machine

/-- A host write to CMD is the write of the register at offset 0: it runs the command it encodes (R200). -/
theorem step_cmdWrite {s : State} {v : Word} {rest : List HostOp} (hs : s.host = .regWrite 0x00 4 v :: rest) :
    step s = exec (decodeCommand v) { s with host := rest } :=
  step_regWrite (r := .cmd) rfl rfl hs

/-- Settles O21: the written value decodes to the START, which fails its capacity check. -/
theorem lengthErrorOnStart : Obligations.LengthErrorOnStart := by
  refine fun s rest hfree => ⟨rfl, fun hs hlen => ?_, fun hs hlen => ?_⟩
  · rw [step_cmdWrite hs, decodeCommand_one]
    exact exec_startEncode_tooLong (s := { s with host := rest }) hfree hlen
  · rw [step_cmdWrite hs, decodeCommand_two]
    exact exec_startDecode_tooLong (s := { s with host := rest }) hfree hlen

end Sys2Proof.Machine
end

section
/-! The decoder and the encoder undo each other, and the masks of the opcode table (30_encoding.md R81 to R91). -/

namespace Sys2Proof

theorem decodeToken_packedByte_cpy {off : Offset} {len : Length} (lit : Byte) (hoff : off ≠ 0) (hlen : len ≠ 0) :
    decodeToken (packedByte off.toNat len.toNat) lit = .cpy off len lit := by
  have eoff := offsetField_packedByte off len
  have elen := lengthField_packedByte off len
  rw [decodeToken_cpy lit (by rwa [eoff]) (by rwa [elen]), eoff, elen]

theorem decodeToken_packedByte_lito {off : Offset} (lit : Byte) (hoff : off ≠ 0) :
    decodeToken (packedByte off.toNat 0) lit = .lito off lit := by
  have eoff : offsetField (packedByte off.toNat 0) = off := offsetField_packedByte off 0
  have elen : lengthField (packedByte off.toNat 0) = 0 := lengthField_packedByte off 0
  rw [decodeToken_lito lit (by rwa [eoff]) elen, eoff]

theorem decodeToken_packedByte_bad0 {len : Length} (lit : Byte) (hlen : len ≠ 0) :
    decodeToken (packedByte 0 len.toNat) lit = .bad0 len lit := by
  have elen : lengthField (packedByte 0 len.toNat) = len := lengthField_packedByte 0 len
  have eoff : offsetField (packedByte 0 len.toNat) = 0 := offsetField_packedByte 0 len
  rw [decodeToken_bad0 lit eoff (by rwa [elen]), elen]

/-- Settles O1, by the row of the instruction; its constraint puts the encoded fields in the same class. -/
theorem decodeEncodeRoundTrip : Obligations.DecodeEncodeRoundTrip := by
  intro i hwf
  cases i with
  | lit0 lit => exact decodeToken_lit0 lit (offsetField_packedByte 0 0) (lengthField_packedByte 0 0)
  | lito off lit => exact decodeToken_packedByte_lito lit (bne_iff_ne.1 hwf)
  | cpy off len lit =>
    obtain ⟨hoff, hlen⟩ := Bool.and_eq_true_iff.1 hwf
    exact decodeToken_packedByte_cpy lit (bne_iff_ne.1 hoff) (bne_iff_ne.1 hlen)
  | bad0 len lit => exact decodeToken_packedByte_bad0 lit (bne_iff_ne.1 hwf)
  | startEncode => exact decodeCommand_one
  | startDecode => exact decodeCommand_two
  | clear => exact decodeCommand_three
  | illegalCmd v =>
    obtain ⟨⟨h1, h2⟩, h3⟩ : (v ≠ 1 ∧ v ≠ 2) ∧ v ≠ 3 := by
      simpa only [Instr.wf, commandOk, Bool.and_eq_true, bne_iff_ne] using hwf
    exact decodeCommand_of_ne h1 h2 h3

/-- No token is reserved (R87): its class fits its fields, and they are all its packed byte holds. -/
theorem encode_decodeToken (p lit : Byte) :
    (decodeToken p lit).wf = true ∧ encode (decodeToken p lit) = .token p lit := by
  have hp := packedByte_fields p
  by_cases hoff : offsetField p = 0 <;> by_cases hlen : lengthField p = 0
  · rw [decodeToken_lit0 lit hoff hlen, encode]
    rw [hoff, hlen] at hp
    exact ⟨rfl, congrArg (CodeWord.token · lit) hp⟩
  · rw [decodeToken_bad0 lit hoff hlen, encode]
    rw [hoff] at hp
    exact ⟨bne_iff_ne.2 hlen, congrArg (CodeWord.token · lit) hp⟩
  · rw [decodeToken_lito lit hoff hlen, encode]
    rw [hlen] at hp
    exact ⟨bne_iff_ne.2 hoff, congrArg (CodeWord.token · lit) hp⟩
  · rw [decodeToken_cpy lit hoff hlen, encode, hp]
    exact ⟨Bool.and_eq_true_iff.2 ⟨bne_iff_ne.2 hoff, bne_iff_ne.2 hlen⟩, rfl⟩

/-- No CMD value is reserved (R89). -/
theorem encode_decodeCommand (v : Word) :
    (decodeCommand v).wf = true ∧ encode (decodeCommand v) = .command v := by
  by_cases h1 : v = 1
  · subst h1; exact ⟨rfl, rfl⟩
  by_cases h2 : v = 2
  · subst h2; exact ⟨rfl, rfl⟩
  by_cases h3 : v = 3
  · subst h3; exact ⟨rfl, rfl⟩
  rw [decodeCommand_of_ne h1 h2 h3]
  exact ⟨by simp only [Instr.wf, commandOk, Bool.and_eq_true, bne_iff_ne]; exact ⟨⟨h1, h2⟩, h3⟩, rfl⟩

/-- Settles O2, for a token and for a command word. -/
theorem encodeDecodeRoundTrip : Obligations.EncodeDecodeRoundTrip
  | .token p lit => encode_decodeToken p lit
  | .command v => encode_decodeCommand v

/-! ### TOK16 (R84) -/

/-- The offset is TOK16[15:11]. -/
theorem extract_offset_tok16 (p lit : Byte) : (p ++ lit).extractLsb' 11 5 = offsetField p := by
  rw [BitVec.extractLsb'_append_eq_of_le (by decide)]
  rfl

/-- The length is TOK16[10:8]. -/
theorem extract_length_tok16 (p lit : Byte) : (p ++ lit).extractLsb' 8 3 = lengthField p := by
  rw [BitVec.extractLsb'_append_eq_of_le (by decide)]
  rfl

/-- Settles O3: a mask of the table tests one field of the packed byte, or the whole byte. -/
theorem tokenClassByTableMask : Obligations.TokenClassByTableMask := by
  intro p lit w off len
  obtain ⟨hbyte, hoffset, hlength⟩ := Laws.EncodingRow.tok16_masks p lit
  have eoff : off = offsetField p := extract_offset_tok16 p lit
  have elen : len = lengthField p := extract_length_tok16 p lit
  rw [eoff, elen]
  refine ⟨fun h => ?_, fun hlen hoff => ?_, fun hoff hlen => ?_, fun hoff hlen => ?_⟩
  · obtain rfl := hbyte.1 h
    exact decodeToken_lit0 lit (by decide) (by decide)
  · exact decodeToken_lito lit (mt hoffset.2 hoff) (hlength.1 hlen)
  · exact decodeToken_cpy lit (mt hoffset.2 hoff) (mt hlength.2 hlen)
  · exact decodeToken_bad0 lit (hoffset.1 hoff) (mt hlength.2 hlen)

/-- Settles O8, by evaluating the decoder on the ten words. -/
theorem specWordsDecode : Obligations.SpecWordsDecode := by
  unfold Obligations.SpecWordsDecode
  decide

end Sys2Proof
end

section
/-! The reference micro-step sequencer over one token (42_decoder.md R175, R13). -/

namespace Sys2Proof.Machine

/-- The sequencer stands before the last `k` copied bytes of its token, or at the literal when none is left (R175). -/
structure CopyLeft (k : Nat) (s : State) : Prop where
  phase : s.dec.dphase = if k = 0 then .lit else .copy
  left : s.dec.dk.toNat + k = s.dec.dlen.toNat

/-- D_COPY leaves one byte less to copy (R166). -/
theorem CopyLeft.next {k : Nat} {s t : State} (h : CopyLeft (k + 1) s) (hstep : decCopy s = .next t) :
    CopyLeft k t := by
  obtain ⟨-, rfl⟩ := decCopy_eq_next hstep
  have hleft := h.left
  have hdk : (s.dec.dk + 1).toNat = s.dec.dk.toNat + 1 := toNat_add_one_inside (by omega)
  refine ⟨?_, show (s.dec.dk + 1).toNat + k = s.dec.dlen.toNat by omega⟩
  have hlast : s.dec.dk + 1 = s.dec.dlen ↔ k = 0 := by
    rw [← BitVec.toNat_inj, hdk]
    omega
  exact if_congr hlast rfl rfl

/-- From D_COPY on, the micro-steps are the copy replay and then the literal (R175). -/
theorem decMicroSteps_of_copyLeft {k : Nat} {s : State} (h : CopyLeft k s) :
    decMicroSteps (k + 1) s = andThen (copyRun k s) decLit := by
  induction k generalizing s with
  | zero =>
    have hmicro : decMicroStep s = decLit s := by rw [decMicroStep, h.phase]; rfl
    rw [decMicroSteps, hmicro, copyRun, andThen_next]
    cases decLit s <;> rfl
  | succ k ih =>
    have hmicro : decMicroStep s = decCopy s := by rw [decMicroStep, h.phase]; rfl
    rw [decMicroSteps, hmicro, copyRun, andThen_assoc]
    cases hcopy : decCopy s with
    | next t => exact ih (h.next hcopy)
    | fault | refused => rfl

/-- A token that passes the checks has its whole length left to copy. -/
theorem checked_copyLeft (off : Offset) (len : Length) (lit : Byte) (s : State) :
    CopyLeft len.toNat (checked off len lit s) :=
  ⟨if_congr toNat_eq_zero.symm rfl rfl, Nat.zero_add _⟩

/-- D_FETCH with both bytes of the token inside DTBUF (R162, R163). -/
theorem decFetch_inside {s : State} (h : 2 * s.dec.tidx.toNat + 1 < s.capTin) :
    decFetch s = .next (latchToken (offsetField (byteAt s .dtbuf (2 * s.dec.tidx.toNat)))
      (lengthField (byteAt s .dtbuf (2 * s.dec.tidx.toNat))) (byteAt s .dtbuf (2 * s.dec.tidx.toNat + 1)) s) := by
  rw [decFetch, memRead_inside _ (show _ < s.capTin by omega), memRead_inside _ h]

/-- The sequencer at D_FETCH reaches the checks in one step. -/
theorem decMicroSteps_of_fetch {s : State} (hphase : s.dec.dphase = .fetch) (h : 2 * s.dec.tidx.toNat + 1 < s.capTin)
    (k : Nat) :
    decMicroSteps (k + 2) s = andThen (checkThen (latchToken (offsetField (byteAt s .dtbuf (2 * s.dec.tidx.toNat)))
      (lengthField (byteAt s .dtbuf (2 * s.dec.tidx.toNat))) (byteAt s .dtbuf (2 * s.dec.tidx.toNat + 1)) s) .next)
      (decMicroSteps k) := by
  have hmicro : decMicroStep s = decFetch s := by rw [decMicroStep, hphase]
  rw [decMicroSteps, hmicro, decFetch_inside h, andThen_next]
  rfl

/-- Settles O18: a rejected token stops at D_CHECK; any other copies its bytes and appends its literal. -/
theorem tokenEqualsMicroSteps : Obligations.TokenEqualsMicroSteps := by
  intro s hphase hinside p lit off len
  rw [exec_decodeToken]
  split
  case isTrue hreject =>
    have hcheck : ∀ f, checkThen (latchToken (offsetField p) (lengthField p) lit s) f =
        .next (raiseCorrupt (latchToken (offsetField p) (lengthField p) lit s)) := fun f => by
      rcases hreject with hfar | ⟨hoff, hlen⟩
      · exact checkThen_tooFar f hfar
      · exact checkThen_zeroCopy f (toNat_eq_zero.1 hoff) (mt toNat_eq_zero.2 hlen.ne')
    rw [decMicroSteps_of_fetch hphase hinside 0]
    exact (congrArg (andThen · (decMicroSteps 0)) (hcheck .next)).trans (hcheck _).symm
  case isFalse hpass =>
    have hhistory : off ≤ s.dec.osize.toNat := by omega
    have hzero : offsetField p = 0 → lengthField p = 0 := fun h0 => by
      have hoff : off = 0 := toNat_eq_zero.2 h0
      exact toNat_eq_zero.1 (show len = 0 by omega)
    rw [decMicroSteps_of_fetch hphase hinside (len + 1), execCpy_checked lit hzero hhistory]
    exact (congrArg (andThen · (decMicroSteps (len + 1)))
      (checkThen_passes (s := latchToken (offsetField p) (lengthField p) lit s) .next hhistory hzero)).trans
      (decMicroSteps_of_copyLeft (checked_copyLeft (offsetField p) (lengthField p) lit s))

end Sys2Proof.Machine
end

section
/-! A step of the encoder, phase by phase: its frame, and a running encode goes on or finishes (41_encoder.md R134). -/

namespace Sys2Proof.Machine

/-! ### The body of each phase -/

theorem encStep_search {s : State} (h : s.enc.ephase = .search) : encStep s = .next (encSearch s) := by
  simp only [encStep, h]

theorem encStep_scan {s : State} (h : s.enc.ephase = .scan) : encStep s = encScan s := by
  simp only [encStep, h]

theorem encStep_clamp {s : State} (h : s.enc.ephase = .clamp) : encStep s = .next (encClamp s) := by
  simp only [encStep, h]

theorem encStep_validate {s : State} (h : s.enc.ephase = .validate) : encStep s = .next (encValidate s) := by
  simp only [encStep, h]

theorem encStep_advance {s : State} (h : s.enc.ephase = .advance) : encStep s = .next (encAdvance s) := by
  simp only [encStep, h]

theorem encValidate_etbuf (s : State) : (encValidate s).etbuf = s.etbuf := by
  rcases encValidate_cases s with ⟨e, -⟩ | ⟨e, -⟩ <;> exact (congrArg State.etbuf e).trans rfl

theorem encAdvance_etbuf (s : State) : (encAdvance s).etbuf = s.etbuf := by
  rcases encAdvance_cases s with ⟨e, -⟩ | ⟨e, -⟩ <;> exact (congrArg State.etbuf e).trans rfl

/-- An encoder step that goes on writes the record of E_EMIT, or no byte of ETBUF (R130, R142). -/
theorem encStep_eq_next {s t : State} (h : encStep s = .next t) :
    EncoderFrame s t ∧ (t.etbuf = s.etbuf ∨ s.enc.ephase = .emit ∧ s.enc.tcount.toNat < s.capIn ∧ t = emitted s) := by
  cases hphase : s.enc.ephase with
  | search =>
    cases (encStep_search hphase).symm.trans h
    exact ⟨encSearch_frame s, .inl rfl⟩
  | scan =>
    rcases encScan_eq_next ((encStep_scan hphase).symm.trans h) with rfl | rfl
    · exact ⟨encCountMatch_frame s, .inl rfl⟩
    · exact ⟨encNextCandidate_frame s, .inl rfl⟩
  | clamp =>
    cases (encStep_clamp hphase).symm.trans h
    exact ⟨encClamp_frame s, .inl rfl⟩
  | validate =>
    cases (encStep_validate hphase).symm.trans h
    exact ⟨encValidate_frame s, .inl (encValidate_etbuf s)⟩
  | emit =>
    obtain ⟨hrecord, -, rfl⟩ := encEmit_eq_next ((encStep_emit hphase).symm.trans h)
    exact ⟨emitted_frame s, .inr ⟨rfl, hrecord, rfl⟩⟩
  | advance =>
    cases (encStep_advance hphase).symm.trans h
    exact ⟨encAdvance_frame s, .inl (encAdvance_etbuf s)⟩

theorem encStep_frame {s t : State} (h : encStep s = .next t) : EncoderFrame s t := (encStep_eq_next h).1

/-- Settles O38: only E_EMIT writes ETBUF, and it writes the two bytes of its record. -/
theorem encoderStepFrame : Obligations.EncoderStepFrame := by
  intro s t h
  obtain ⟨hframe, hsame | ⟨hphase, -, rfl⟩⟩ := encStep_eq_next h
  · exact ⟨hframe, fun i hne => absurd (byteAt_congr (b := .etbuf) hsame hframe.resets i) hne⟩
  · refine ⟨hframe, fun i hne => ⟨hphase, ?_⟩⟩
    by_contra hother
    obtain ⟨hpacked, hlit⟩ := not_or.1 hother
    exact hne (by rw [byteAt_emitted, if_neg hlit, if_neg hpacked])

/-! ### A running encode -/

/-- How many steps the phase may still take before the cursor moves, at most: the scan has 31 candidates of 8
compares. -/
def encPhaseRank (e : EncRegs) : Nat :=
  match e.ephase with
  | .search => 300
  | .scan => (e.pos.toNat - e.s.toNat) * 8 + (7 - e.k.toNat) + 4
  | .clamp => 3
  | .validate => 2
  | .emit => 1
  | .advance => 0

section
variable {e : EncRegs}

theorem encPhaseRank_search (h : e.ephase = .search) : encPhaseRank e = 300 := by rw [encPhaseRank, h]

theorem encPhaseRank_scan (h : e.ephase = .scan) :
    encPhaseRank e = (e.pos.toNat - e.s.toNat) * 8 + (7 - e.k.toNat) + 4 := by rw [encPhaseRank, h]

theorem encPhaseRank_clamp (h : e.ephase = .clamp) : encPhaseRank e = 3 := by rw [encPhaseRank, h]

theorem encPhaseRank_validate (h : e.ephase = .validate) : encPhaseRank e = 2 := by rw [encPhaseRank, h]

theorem encPhaseRank_emit (h : e.ephase = .emit) : encPhaseRank e = 1 := by rw [encPhaseRank, h]

theorem encPhaseRank_advance (h : e.ephase = .advance) : encPhaseRank e = 0 := by rw [encPhaseRank, h]

theorem encPhaseLegal_search (h : e.ephase = .search) : EncPhaseLegal e ↔ e.tcount.toNat ≤ e.pos.toNat := by
  rw [EncPhaseLegal, h]

theorem encPhaseLegal_scan (h : e.ephase = .scan) :
    EncPhaseLegal e ↔ e.tcount.toNat ≤ e.pos.toNat ∧ e.s.toNat < e.pos.toNat ∧ e.pos.toNat ≤ e.s.toNat + 31 ∧
      e.k.toNat ≤ 7 ∧ e.pos.toNat + e.k.toNat ≤ e.n.toNat ∧ BestLegal e := by
  rw [EncPhaseLegal, h]

theorem encPhaseLegal_clamp (h : e.ephase = .clamp) :
    EncPhaseLegal e ↔ e.tcount.toNat ≤ e.pos.toNat ∧ BestLegal e := by
  rw [EncPhaseLegal, h]

theorem encPhaseLegal_validate (h : e.ephase = .validate) :
    EncPhaseLegal e ↔ e.tcount.toNat ≤ e.pos.toNat ∧ TokenLegal e := by
  rw [EncPhaseLegal, h]

theorem encPhaseLegal_emit (h : e.ephase = .emit) :
    EncPhaseLegal e ↔ e.tcount.toNat ≤ e.pos.toNat ∧ TokenLegal e := by
  rw [EncPhaseLegal, h]

theorem encPhaseLegal_advance (h : e.ephase = .advance) :
    EncPhaseLegal e ↔ e.tcount.toNat ≤ e.pos.toNat + 1 ∧ TokenLegal e := by
  rw [EncPhaseLegal, h]

end

/-- A bound on the steps an encode still takes: every step lowers it. -/
def encRank (e : EncRegs) : Nat := (e.n.toNat - e.pos.toNat) * 301 + encPhaseRank e

/-- The encode goes on after the step: nothing of its status moves. -/
structure EncContinues (s t : State) : Prop where
  state : t.state = s.state
  errCode : t.errCode = s.errCode
  errInfo : t.errInfo = s.errInfo
  running : EncRunning t
  rank : encRank t.enc < encRank s.enc

/-- The encode ends with the step, without an error (R132). -/
structure EncFinishes (s t : State) : Prop where
  state : t.state = .done
  errCode : t.errCode = s.errCode
  errInfo : t.errInfo = s.errInfo
  count : t.encTokCount.toNat ≤ t.capIn

/-- A step that leaves the cursor keeps the encode running in its new phase, if the phase is nearer the advance. -/
theorem EncRunning.continues {s t : State} (h : EncRunning s) (frame : EncoderFrame s t) (state : t.state = s.state)
    (errCode : t.errCode = s.errCode) (errInfo : t.errInfo = s.errInfo) (count : t.encTokCount = s.encTokCount)
    (pos : t.enc.pos = s.enc.pos) (legal : EncPhaseLegal t.enc) (rank : encPhaseRank t.enc < encPhaseRank s.enc) :
    EncContinues s t := by
  refine ⟨state, errCode, errInfo, ⟨?_, ?_, ?_, count.trans h.hidden, legal⟩, ?_⟩
  · rw [frame.latched, frame.encInLen, h.latched]
  · rw [frame.latched, frame.capIn]
    exact h.fits
  · rw [pos, frame.latched]
    exact h.cursor
  · rw [encRank, encRank, pos, frame.latched]
    omega

/-- E_SEARCH: the scan starts inside the window with no match yet (R122, R125). -/
theorem encSearch_continues {s : State} (h : EncRunning s) (hphase : s.enc.ephase = .search) :
    EncContinues s (encSearch s) := by
  have hcursor := h.cursor
  have hwindow := windowStart_toNat s.enc.pos
  have hcount := (encPhaseLegal_search hphase).1 h.phase
  have hbest : BestLegal (encSearch s).enc :=
    ⟨Nat.zero_le 7, hcursor.le, Nat.le_refl _, Nat.le_add_right _ _, fun h0 => absurd rfl h0⟩
  refine h.continues (encSearch_frame s) rfl rfl rfl rfl rfl ?_ ?_ <;>
    by_cases hscan : (windowStart s.enc.pos).toNat < s.enc.pos.toNat
  · refine (encPhaseLegal_scan (if_pos hscan)).2 ⟨hcount, hscan, ?_, Nat.zero_le 7, hcursor.le, hbest⟩
    show s.enc.pos.toNat ≤ (windowStart s.enc.pos).toNat + 31
    omega
  · exact (encPhaseLegal_clamp (if_neg hscan)).2 ⟨hcount, hbest⟩
  · rw [encPhaseRank_search hphase, encPhaseRank_scan (if_pos hscan)]
    show (s.enc.pos.toNat - (windowStart s.enc.pos).toNat) * 8 + 7 + 4 < 300
    omega
  · rw [encPhaseRank_search hphase, encPhaseRank_clamp (if_neg hscan)]
    decide

/-- E_SCAN, an equal byte inside the input: the candidate is still in range (R123). -/
theorem encCountMatch_continues {s : State} (h : EncRunning s) (hphase : s.enc.ephase = .scan)
    (hk : s.enc.k.toNat < 7) (hend : s.enc.pos.toNat + s.enc.k.toNat < s.enc.n.toNat) :
    EncContinues s (encCountMatch s) := by
  obtain ⟨hcount, hs, hnear, -, -, hbest⟩ := (encPhaseLegal_scan hphase).1 h.phase
  have hsucc : (s.enc.k + 1).toNat = s.enc.k.toNat + 1 := toNat_add_one_inside (by omega)
  have hnext : (encCountMatch s).enc.ephase = .scan := hphase
  refine h.continues (encCountMatch_frame s) rfl rfl rfl rfl rfl ?_ ?_
  · refine (encPhaseLegal_scan hnext).2 ⟨hcount, hs, hnear, ?_, ?_, ⟨hbest.1, hbest.2, hbest.3, hbest.4, hbest.5⟩⟩
    · show (s.enc.k + 1).toNat ≤ 7
      omega
    · show s.enc.pos.toNat + (s.enc.k + 1).toNat ≤ s.enc.n.toNat
      omega
  · rw [encPhaseRank_scan hphase, encPhaseRank_scan hnext]
    show (s.enc.pos.toNat - s.enc.s.toNat) * 8 + (7 - (s.enc.k + 1).toNat) + 4 < _
    omega

/-- The best match after a candidate is a match of the window (R124). -/
theorem encNextCandidate_best {s : State} (h : EncPhaseLegal s.enc) (hphase : s.enc.ephase = .scan) :
    BestLegal (encNextCandidate s).enc := by
  obtain ⟨-, hs, hnear, hk, hend, hbest⟩ := (encPhaseLegal_scan hphase).1 h
  by_cases hbetter : s.enc.bestLen.toNat < s.enc.k.toNat
  · have hlen : (encNextCandidate s).enc.bestLen = s.enc.k := if_pos hbetter
    have hstart : (encNextCandidate s).enc.bestS = s.enc.s := if_pos hbetter
    exact ⟨by rwa [hlen], by rw [hlen]; exact hend, by rw [hstart]; exact hs.le, by rw [hstart]; exact hnear,
      fun _ => by rw [hstart]; exact hs⟩
  · have hlen : (encNextCandidate s).enc.bestLen = s.enc.bestLen := if_neg hbetter
    have hstart : (encNextCandidate s).enc.bestS = s.enc.bestS := if_neg hbetter
    exact ⟨by rw [hlen]; exact hbest.cap, by rw [hlen]; exact hbest.inside, by rw [hstart]; exact hbest.before,
      by rw [hstart]; exact hbest.near, by rw [hlen, hstart]; exact hbest.found⟩

/-- E_SCAN, the end of a candidate: the next one is in the window, or the clamp follows the last (R124). -/
theorem encNextCandidate_continues {s : State} (h : EncRunning s) (hphase : s.enc.ephase = .scan) :
    EncContinues s (encNextCandidate s) := by
  obtain ⟨hcount, hs, hnear, hk, -, -⟩ := (encPhaseLegal_scan hphase).1 h.phase
  have hcursor := h.cursor
  have hbest := encNextCandidate_best h.phase hphase
  have hsucc : (s.enc.s + 1).toNat = s.enc.s.toNat + 1 := toNat_add_one_inside (by omega)
  refine h.continues (encNextCandidate_frame s) rfl rfl rfl rfl rfl ?_ ?_ <;>
    by_cases hlast : s.enc.s + 1 = s.enc.pos
  · exact (encPhaseLegal_clamp (if_pos hlast)).2 ⟨hcount, hbest⟩
  · have hne : (s.enc.s + 1).toNat ≠ s.enc.pos.toNat := mt BitVec.eq_of_toNat_eq hlast
    refine (encPhaseLegal_scan (if_neg hlast)).2 ⟨hcount, ?_, ?_, Nat.zero_le 7, hcursor.le, hbest⟩
    · show (s.enc.s + 1).toNat < s.enc.pos.toNat
      omega
    · show s.enc.pos.toNat ≤ (s.enc.s + 1).toNat + 31
      omega
  · rw [encPhaseRank_scan hphase, encPhaseRank_clamp (if_pos hlast)]
    omega
  · rw [encPhaseRank_scan hphase, encPhaseRank_scan (if_neg hlast)]
    show (s.enc.pos.toNat - (s.enc.s + 1).toNat) * 8 + 7 + 4 < _
    omega

/-- E_SCAN reads inside IBUF, and goes on with the candidate or after it (R123). -/
theorem encScan_continues {s : State} (h : EncRunning s) (hphase : s.enc.ephase = .scan) :
    ∃ t, encScan s = .next t ∧ EncContinues s t := by
  obtain ⟨-, hs, -⟩ := (encPhaseLegal_scan hphase).1 h.phase
  rw [encScan_inside h.fits hs.le]
  split
  case isTrue hequal => exact ⟨_, rfl, encCountMatch_continues h hphase hequal.1 hequal.2.1⟩
  case isFalse => exact ⟨_, rfl, encNextCandidate_continues h hphase⟩

/-- E_CLAMP: the token leaves one literal byte and has its source in the window (R126, R127, R137). -/
theorem encClamp_tokenLegal {s : State} (hbest : BestLegal s.enc) (hcursor : s.enc.pos.toNat < s.enc.n.toNat) :
    TokenLegal (encClamp s).enc := by
  obtain ⟨hcap, hinside, hbefore, hnear, hfound⟩ := hbest
  have hlen : (clampedLen s).toNat = _ := clampedLen_toNat hcursor
  have hoff : (tokenOffset s).toNat = _ := tokenOffset_toNat hbefore
  have hle : (clampedLen s).toNat ≤ s.enc.bestLen.toNat ∧ s.enc.pos.toNat + (clampedLen s).toNat < s.enc.n.toNat := by
    rw [hlen]
    split <;> omega
  have hsource : (clampedLen s).toNat ≠ 0 → s.enc.bestS.toNat < s.enc.pos.toNat := fun h0 =>
    hfound fun hz => h0 (by rw [hz] at hle; exact Nat.le_zero.1 hle.1)
  refine ⟨hle.1.trans hcap, ?_, hle.2, ?_, ?_⟩
  · show (tokenOffset s).toNat ≤ 31
    rw [hoff]
    split <;> omega
  · show tokenOffset s = 0 ↔ clampedLen s = 0
    rw [← toNat_eq_zero, ← toNat_eq_zero, hoff]
    split <;> omega
  · show (tokenOffset s).toNat ≤ s.enc.pos.toNat
    rw [hoff]
    split <;> omega

theorem encClamp_continues {s : State} (h : EncRunning s) (hphase : s.enc.ephase = .clamp) :
    EncContinues s (encClamp s) := by
  obtain ⟨hcount, hbest⟩ := (encPhaseLegal_clamp hphase).1 h.phase
  refine h.continues (encClamp_frame s) rfl rfl rfl rfl rfl ?_ ?_
  · exact (encPhaseLegal_validate rfl).2 ⟨hcount, encClamp_tokenLegal hbest h.cursor⟩
  · rw [encPhaseRank_clamp hphase, encPhaseRank_validate rfl]
    decide

/-- E_VALIDATE of a running encode never raises DOMAIN (R128, R141). -/
theorem encValidate_running {s : State} (h : EncRunning s) (hphase : s.enc.ephase = .validate) :
    encValidate s = { s with enc := { s.enc with ephase := .emit } } := by
  obtain ⟨-, htoken⟩ := (encPhaseLegal_validate hphase).1 h.phase
  have hcap := htoken.cap
  have hwindow := htoken.window
  rcases encValidate_cases s with ⟨-, hrange⟩ | ⟨e, -⟩
  · omega
  · exact e

theorem encValidate_continues {s : State} (h : EncRunning s) (hphase : s.enc.ephase = .validate) :
    EncContinues s (encValidate s) := by
  obtain ⟨hcount, htoken⟩ := (encPhaseLegal_validate hphase).1 h.phase
  have hframe := encValidate_frame s
  rw [encValidate_running h hphase] at hframe ⊢
  refine h.continues hframe rfl rfl rfl rfl rfl ?_ ?_
  · exact (encPhaseLegal_emit rfl).2 ⟨hcount, ⟨htoken.1, htoken.2, htoken.3, htoken.4, htoken.5⟩⟩
  · rw [encPhaseRank_validate hphase, encPhaseRank_emit rfl]
    decide

/-- E_EMIT of a running encode has room in ETBUF and its literal in IBUF (R130, R138). -/
theorem encEmit_running {s : State} (h : EncRunning s) (hphase : s.enc.ephase = .emit) :
    encEmit s = .next (emitted s) := by
  obtain ⟨hcount, htoken⟩ := (encPhaseLegal_emit hphase).1 h.phase
  have hliteral := htoken.literal
  have hcursor := h.cursor
  have hfits := h.fits
  exact encEmit_inside (by omega) (by omega)

theorem emitted_continues {s : State} (h : EncRunning s) (hphase : s.enc.ephase = .emit) :
    EncContinues s (emitted s) := by
  obtain ⟨hcount, htoken⟩ := (encPhaseLegal_emit hphase).1 h.phase
  have hcursor := h.cursor
  have hsucc : (s.enc.tcount + 1).toNat = s.enc.tcount.toNat + 1 := toNat_add_one_inside (by omega)
  refine h.continues (emitted_frame s) rfl rfl rfl rfl rfl ?_ ?_
  · refine (encPhaseLegal_advance rfl).2 ⟨?_, ⟨htoken.1, htoken.2, htoken.3, htoken.4, htoken.5⟩⟩
    show (s.enc.tcount + 1).toNat ≤ s.enc.pos.toNat + 1
    omega
  · rw [encPhaseRank_emit hphase, encPhaseRank_advance rfl]
    decide

/-- E_ADVANCE: every token covers at least its literal, so the tokens stay at most as many as the bytes (R131, R138). -/
theorem encAdvance_running {s : State} (h : EncRunning s) (hphase : s.enc.ephase = .advance) :
    EncContinues s (encAdvance s) ∨ EncFinishes s (encAdvance s) := by
  obtain ⟨hcount, htoken⟩ := (encPhaseLegal_advance hphase).1 h.phase
  have hliteral := htoken.literal
  have hfits := h.fits
  have hpos := advanced_pos (s := s) (by omega)
  rcases encAdvance_cases s with ⟨e, hmore⟩ | ⟨e, -⟩ <;> rw [e]
  · refine .inl ⟨rfl, rfl, rfl, ⟨h.latched, h.fits, hmore, h.hidden, ?_⟩, ?_⟩
    · refine (encPhaseLegal_search rfl).2 ?_
      show s.enc.tcount.toNat ≤ (advanced s).enc.pos.toNat
      omega
    · rw [encRank, encRank, encPhaseRank_advance hphase, encPhaseRank_search rfl]
      show (s.enc.n.toNat - (advanced s).enc.pos.toNat) * 301 + 300 < _
      omega
  · refine .inr ⟨rfl, rfl, rfl, ?_⟩
    show s.enc.tcount.toNat ≤ s.capIn
    omega

/-- Every step of a running encode goes on or finishes: no access leaves its buffer, and DOMAIN is never raised. -/
theorem encStep_running {s : State} (h : EncRunning s) :
    ∃ t, encStep s = .next t ∧ (EncContinues s t ∨ EncFinishes s t) := by
  cases hphase : s.enc.ephase with
  | search => exact ⟨_, encStep_search hphase, .inl (encSearch_continues h hphase)⟩
  | scan =>
    obtain ⟨t, ht, hgo⟩ := encScan_continues h hphase
    exact ⟨t, (encStep_scan hphase).trans ht, .inl hgo⟩
  | clamp => exact ⟨_, encStep_clamp hphase, .inl (encClamp_continues h hphase)⟩
  | validate => exact ⟨_, encStep_validate hphase, .inl (encValidate_continues h hphase)⟩
  | emit => exact ⟨_, (encStep_emit hphase).trans (encEmit_running h hphase), .inl (emitted_continues h hphase)⟩
  | advance => exact ⟨_, encStep_advance hphase, encAdvance_running h hphase⟩

end Sys2Proof.Machine
end

section
/-! A step of the decoder: a running decode goes on, finishes, or raises CORRUPT_STREAM (42_decoder.md R175). -/

namespace Sys2Proof.Machine

/-! ### The phases -/

theorem decStep_fetch {s : State} (h : s.dec.dphase = .fetch) : decStep s = runToken s := by
  simp only [decStep, h]

theorem decStep_check {s : State} (h : s.dec.dphase = .check) : decStep s = decCheck s := by
  simp only [decStep, decMicroStep, h]

theorem decStep_copy {s : State} (h : s.dec.dphase = .copy) : decStep s = decCopy s := by
  simp only [decStep, decMicroStep, h]

theorem decStep_lit {s : State} (h : s.dec.dphase = .lit) : decStep s = decLit s := by
  simp only [decStep, decMicroStep, h]

/-- A token inside DTBUF is fetched and executed whole (R162, R71). -/
theorem runToken_inside {s : State} (h : 2 * s.dec.tidx.toNat + 1 < s.capTin) :
    runToken s = exec (decodeToken (byteAt s .dtbuf (2 * s.dec.tidx.toNat))
      (byteAt s .dtbuf (2 * s.dec.tidx.toNat + 1))) s := by
  rw [runToken, memRead_inside _ (show _ < s.capTin by omega), memRead_inside _ h]

/-- How many steps the phase may still take before its token ends, at most. -/
def decPhaseRank (d : DecRegs) : Nat :=
  match d.dphase with
  | .fetch => 0
  | .check => 8
  | .copy => d.dlen.toNat - d.dk.toNat
  | .lit => 0

/-- A bound on the steps a decode still takes: every step lowers it. -/
def decRank (d : DecRegs) : Nat := (d.l.toNat / 2 - d.tidx.toNat) * 9 + decPhaseRank d

section
variable {d : DecRegs}

theorem decPhaseRank_fetch (h : d.dphase = .fetch) : decPhaseRank d = 0 := by rw [decPhaseRank, h]

theorem decPhaseRank_check (h : d.dphase = .check) : decPhaseRank d = 8 := by rw [decPhaseRank, h]

theorem decPhaseRank_copy (h : d.dphase = .copy) : decPhaseRank d = d.dlen.toNat - d.dk.toNat := by
  rw [decPhaseRank, h]

theorem decPhaseRank_lit (h : d.dphase = .lit) : decPhaseRank d = 0 := by rw [decPhaseRank, h]

theorem decPhaseLegal_fetch (h : d.dphase = .fetch) : DecPhaseLegal d ↔ d.osize.toNat ≤ 8 * d.tidx.toNat := by
  rw [DecPhaseLegal, h]

theorem decPhaseLegal_check (h : d.dphase = .check) :
    DecPhaseLegal d ↔ d.osize.toNat ≤ 8 * d.tidx.toNat ∧ d.dk = 0 := by
  rw [DecPhaseLegal, h]

theorem decPhaseLegal_copy (h : d.dphase = .copy) :
    DecPhaseLegal d ↔ 1 ≤ d.doff.toNat ∧ d.doff.toNat ≤ d.osize.toNat ∧ d.dk.toNat < d.dlen.toNat ∧
      d.osize.toNat ≤ 8 * d.tidx.toNat + d.dk.toNat := by
  rw [DecPhaseLegal, h]

theorem decPhaseLegal_lit (h : d.dphase = .lit) : DecPhaseLegal d ↔ d.osize.toNat ≤ 8 * d.tidx.toNat + 7 := by
  rw [DecPhaseLegal, h]

end

/-! ### A running decode -/

/-- The decode goes on after the step: nothing of its status moves. -/
structure DecContinues (s t : State) : Prop where
  state : t.state = s.state
  errCode : t.errCode = s.errCode
  errInfo : t.errInfo = s.errInfo
  running : DecRunning t
  rank : decRank t.dec < decRank s.dec

/-- The decode ends with the step, without an error (R168) or with CORRUPT_STREAM (R176). -/
structure DecEnds (s t : State) : Prop where
  status : t.state = .done ∧ t.errCode = s.errCode ∧ t.errInfo = s.errInfo ∨ TokenCorrupt s t
  count : t.decOutLen.toNat ≤ 4 * t.capTin

/-- A token fits OBUF: before it at most eight bytes are written for each token (R178). -/
theorem DecRunning.room {s : State} (h : DecRunning s) : 8 * s.dec.tidx.toNat + 8 ≤ 4 * s.capTin := by
  have hindex := h.index
  have hfits := h.fits
  omega

/-- The bytes of the current token are inside DTBUF (R61). -/
theorem DecRunning.token_inside {s : State} (h : DecRunning s) : 2 * s.dec.tidx.toNat + 1 < s.capTin := by
  have hindex := h.index
  have hfits := h.fits
  omega

/-- A step inside a token keeps the decode running in its new phase, if the phase is nearer the end of the token. -/
theorem DecRunning.continues {s t : State} (h : DecRunning s) (frame : TokenFrame s t) (state : t.state = s.state)
    (errCode : t.errCode = s.errCode) (errInfo : t.errInfo = s.errInfo) (count : t.decOutLen = s.decOutLen)
    (tidx : t.dec.tidx = s.dec.tidx) (legal : DecPhaseLegal t.dec)
    (rank : decPhaseRank t.dec < decPhaseRank s.dec) : DecContinues s t := by
  refine ⟨state, errCode, errInfo, ⟨?_, ?_, ?_, ?_, count.trans h.hidden, legal⟩, ?_⟩
  · rw [frame.latched, frame.decTokLen, h.latched]
  · rw [frame.latched]
    exact h.even
  · rw [frame.latched, frame.capTin]
    exact h.fits
  · rw [tidx, frame.latched]
    exact h.index
  · rw [decRank, decRank, tidx, frame.latched]
    omega

/-- A failed check ends the decode with the output of the tokens before (R164, R165, R176). -/
theorem DecRunning.corrupt {s t : State} (h : DecRunning s) (frame : TokenFrame s t) (corrupt : TokenCorrupt s t)
    (osize : s.dec.osize.toNat ≤ 8 * s.dec.tidx.toNat) : DecEnds s t := by
  have hroom := h.room
  refine ⟨.inr corrupt, ?_⟩
  rw [corrupt.decOutLen, frame.capTin]
  omega

/-- A token that completes leads to the next fetch, or ends the decode after the last (R168). -/
theorem DecRunning.completes {s t : State} (h : DecRunning s) (frame : TokenFrame s t) (c : TokenCompletes s t)
    (osize : t.dec.osize.toNat ≤ 8 * s.dec.tidx.toNat + 8) : DecContinues s t ∨ DecEnds s t := by
  have hroom := h.room
  have hindex := h.index
  have hsucc : (s.dec.tidx + 1).toNat = s.dec.tidx.toNat + 1 := toNat_add_one_inside (by omega)
  by_cases hmore : (s.dec.tidx + 1).toNat < s.dec.l.toNat / 2
  · obtain ⟨hstate, hcount, hphase⟩ := c.more hmore
    refine .inl ⟨hstate, c.errCode, c.errInfo, ⟨?_, ?_, ?_, ?_, hcount.trans h.hidden, ?_⟩, ?_⟩
    · rw [frame.latched, frame.decTokLen, h.latched]
    · rw [frame.latched]
      exact h.even
    · rw [frame.latched, frame.capTin]
      exact h.fits
    · rwa [c.index, frame.latched]
    · rw [decPhaseLegal_fetch hphase, c.index]
      omega
    · rw [decRank, decRank, decPhaseRank_fetch hphase, c.index, frame.latched]
      omega
  · obtain ⟨hstate, hcount⟩ := c.last hmore
    refine .inr ⟨.inl ⟨hstate, c.errCode, c.errInfo⟩, ?_⟩
    rw [hcount, frame.capTin]
    omega

/-- D_FETCH: the whole token (R13). -/
theorem runToken_running {s : State} (hc : CapsLegal s) (h : DecRunning s) (hphase : s.dec.dphase = .fetch) :
    ∃ t, runToken s = .next t ∧ (DecContinues s t ∨ DecEnds s t) := by
  have hosize := (decPhaseLegal_fetch hphase).1 h.phase
  have hroom := h.room
  rw [runToken_inside h.token_inside, exec_decodeToken]
  generalize byteAt s .dtbuf (2 * s.dec.tidx.toNat + 1) = lit
  generalize byteAt s .dtbuf (2 * s.dec.tidx.toNat) = p
  rcases execCpy_cases (offsetField p) (lengthField p) lit s with hreject | ⟨-, hhistory, hzero⟩
  · obtain ⟨hframe, hcorrupt⟩ := rejected_spec (offsetField p) (lengthField p) lit s
    exact ⟨_, hreject, .inr (h.corrupt hframe hcorrupt hosize)⟩
  · obtain ⟨t, ht, a⟩ := execCpy_appends lit hc hzero hhistory (by omega)
    have hlen := a.osize
    exact ⟨t, ht, h.completes a.frame a.completes (by omega)⟩

/-- D_CHECK (R164, R165). -/
theorem decCheck_running {s : State} (h : DecRunning s) (hphase : s.dec.dphase = .check) :
    ∃ t, decCheck s = .next t ∧ (DecContinues s t ∨ DecEnds s t) := by
  obtain ⟨hosize, hdk⟩ := (decPhaseLegal_check hphase).1 h.phase
  rcases checkThen_cases s .next with ⟨hreject, -⟩ | ⟨hpass, hhistory, hzero⟩
  · exact ⟨_, hreject, .inr (h.corrupt (raiseCorrupt_frame s) (raiseCorrupt_corrupt s) hosize)⟩
  · refine ⟨_, hpass, .inl (h.continues (setDPhase_frame _ s) rfl rfl rfl rfl rfl ?_ ?_)⟩ <;>
      by_cases hlen : s.dec.dlen = 0
    · refine (decPhaseLegal_lit (if_pos hlen)).2 ?_
      show s.dec.osize.toNat ≤ 8 * s.dec.tidx.toNat + 7
      omega
    · have hoff : s.dec.doff.toNat ≠ 0 := mt toNat_eq_zero.1 (mt hzero hlen)
      have hpos : s.dec.dlen.toNat ≠ 0 := mt toNat_eq_zero.1 hlen
      have hdk0 : s.dec.dk.toNat = 0 := toNat_eq_zero.2 hdk
      refine (decPhaseLegal_copy (if_neg hlen)).2 ⟨Nat.pos_of_ne_zero hoff, hhistory, ?_, ?_⟩
      · show s.dec.dk.toNat < s.dec.dlen.toNat
        omega
      · show s.dec.osize.toNat ≤ 8 * s.dec.tidx.toNat + s.dec.dk.toNat
        omega
    · rw [decPhaseRank_check hphase, decPhaseRank_lit (if_pos hlen)]
      decide
    · rw [decPhaseRank_check hphase, decPhaseRank_copy (if_neg hlen)]
      show s.dec.dlen.toNat - s.dec.dk.toNat < 8
      omega

/-- D_COPY (R166). -/
theorem decCopy_running {s : State} (hc : CapsLegal s) (h : DecRunning s) (hphase : s.dec.dphase = .copy) :
    ∃ t, decCopy s = .next t ∧ DecContinues s t := by
  obtain ⟨hoff, hhistory, hdk, hosize⟩ := (decPhaseLegal_copy hphase).1 h.phase
  have hroom := h.room
  have hinside : s.dec.osize.toNat < 4 * s.capTin := by omega
  have hgrow := osize_succ hc hinside
  have hsucc : (s.dec.dk + 1).toNat = s.dec.dk.toNat + 1 := toNat_add_one_inside (by omega)
  refine ⟨_, decCopy_inside hinside, h.continues ((appended_frame _ s).trans (countCopied_frame _))
    rfl rfl rfl rfl rfl ?_ ?_⟩ <;> by_cases hlast : s.dec.dk + 1 = s.dec.dlen
  · refine (decPhaseLegal_lit (if_pos hlast)).2 ?_
    show (s.dec.osize + 1).toNat ≤ 8 * s.dec.tidx.toNat + 7
    omega
  · have hne : (s.dec.dk + 1).toNat ≠ s.dec.dlen.toNat := mt BitVec.eq_of_toNat_eq hlast
    refine (decPhaseLegal_copy (if_neg hlast)).2 ⟨hoff, ?_, ?_, ?_⟩
    · show s.dec.doff.toNat ≤ (s.dec.osize + 1).toNat
      omega
    · show (s.dec.dk + 1).toNat < s.dec.dlen.toNat
      omega
    · show (s.dec.osize + 1).toNat ≤ 8 * s.dec.tidx.toNat + (s.dec.dk + 1).toNat
      omega
  · rw [decPhaseRank_copy hphase, decPhaseRank_lit (if_pos hlast)]
    omega
  · rw [decPhaseRank_copy hphase, decPhaseRank_copy (if_neg hlast)]
    show s.dec.dlen.toNat - (s.dec.dk + 1).toNat < _
    omega

/-- D_LIT (R167, R168). -/
theorem decLit_running {s : State} (hc : CapsLegal s) (h : DecRunning s) (hphase : s.dec.dphase = .lit) :
    ∃ t, decLit s = .next t ∧ (DecContinues s t ∨ DecEnds s t) := by
  have hosize := (decPhaseLegal_lit hphase).1 h.phase
  have hroom := h.room
  obtain ⟨t, ht, frame, c, hgrow, -⟩ := decLit_spec hc (by omega)
  exact ⟨t, ht, h.completes frame c (by omega)⟩

/-- Every step of a running decode goes on or ends the decode: no access leaves its buffer. -/
theorem decStep_running {s : State} (hc : CapsLegal s) (h : DecRunning s) :
    ∃ t, decStep s = .next t ∧ (DecContinues s t ∨ DecEnds s t) := by
  cases hphase : s.dec.dphase with
  | fetch => exact decStep_fetch hphase ▸ runToken_running hc h hphase
  | check => exact decStep_check hphase ▸ decCheck_running h hphase
  | copy =>
    obtain ⟨t, ht, hgo⟩ := decCopy_running hc h hphase
    exact ⟨t, (decStep_copy hphase).trans ht, .inl hgo⟩
  | lit => exact decStep_lit hphase ▸ decLit_running hc h hphase

end Sys2Proof.Machine
end

section
/-! The parts of the invariant, each by the fields it reads (10_state.md sections 2 to 5). -/

namespace Sys2Proof.Machine

theorem CapsLegal.congr {s t : State} (h : CapsLegal s) (capIn : t.capIn = s.capIn) (capTin : t.capTin = s.capTin) :
    CapsLegal t :=
  ⟨capIn ▸ h.inLow, capIn ▸ h.inHigh, capTin ▸ h.tinLow, capTin ▸ h.tinHigh, capTin ▸ h.tinEven⟩

theorem StatusLegal.congr {s t : State} (h : StatusLegal s) (state : t.state = s.state) (lastOp : t.lastOp = s.lastOp)
    (errCode : t.errCode = s.errCode) (errInfo : t.errInfo = s.errInfo) : StatusLegal t := by
  obtain ⟨h1, h2, h3, h4, h5, h6, h7, h8, h9⟩ := h
  rw [← state, ← errCode] at h1 h2
  rw [← errCode] at h3
  rw [← state, ← lastOp] at h4 h5 h6
  rw [← errCode, ← lastOp] at h7 h8 h9
  exact ⟨errInfo ▸ h1, h2, h3, h4, h5, h6, h7, h8, h9⟩

/-- The status without an error: LAST_OP names an operation unless the block is IDLE. -/
theorem StatusLegal.of_noError {s : State} (state : s.state ≠ .error) (errCode : s.errCode = .none)
    (errInfo : s.errInfo = 0) (idle : s.state = .idle → s.lastOp = .none)
    (operation : s.state ≠ .idle → s.lastOp ≠ .none) : StatusLegal s where
  noError _ := ⟨errCode, errInfo⟩
  someError h := absurd h state
  notDomain := by rw [errCode]; decide
  idleOp := idle
  busyOp h := operation (by rw [h]; decide)
  doneOp h := operation (by rw [h]; decide)
  streamOp h := by rw [errCode] at h; rcases h with h | h <;> cases h
  lengthOp h := by rw [errCode] at h; cases h
  illegalOp h := by rw [errCode] at h; cases h

/-- The status after an error: LAST_OP is the command that raised it (R220, R224, R225). -/
theorem StatusLegal.of_error {s : State} (state : s.state = .error)
    (errCode : (s.errCode = .corruptStream ∨ s.errCode = .truncatedTokenStream) ∧ s.lastOp = .decode ∨
      s.errCode = .lengthError ∧ s.lastOp ≠ .none ∨ s.errCode = .illegalCommand ∧ s.lastOp = .none) :
    StatusLegal s := by
  rcases errCode with ⟨hcode | hcode, hop⟩ | ⟨hcode, hop⟩ | ⟨hcode, hop⟩ <;>
    constructor <;> simp [state, hcode, hop]

theorem BuffersLegal.congr {s t : State} (h : BuffersLegal s) (mem : ∀ b, bufMem t b = bufMem s b)
    (capIn : t.capIn = s.capIn) (capTin : t.capTin = s.capTin) : BuffersLegal t := by
  intro b
  have hsize : bufSize t b = bufSize s b := by cases b <;> simp only [bufSize, capIn, capTin]
  rw [mem, hsize]
  exact h b

/-- No byte is written after reset (R53). -/
theorem BuffersLegal.of_empty {s : State} (h : ∀ b, bufMem s b = []) : BuffersLegal s := by
  intro b
  rw [h]
  exact ⟨rfl, nofun⟩

theorem EncRunning.congr {s t : State} (h : EncRunning s) (enc : t.enc = s.enc) (encInLen : t.encInLen = s.encInLen)
    (capIn : t.capIn = s.capIn) (count : t.encTokCount = s.encTokCount) : EncRunning t := by
  obtain ⟨latched, fits, cursor, hidden, phase⟩ := h
  exact ⟨by rw [enc, encInLen, latched], by rwa [enc, capIn], by rwa [enc], count.trans hidden, enc ▸ phase⟩

theorem DecRunning.congr {s t : State} (h : DecRunning s) (dec : t.dec = s.dec) (decTokLen : t.decTokLen = s.decTokLen)
    (capTin : t.capTin = s.capTin) (count : t.decOutLen = s.decOutLen) : DecRunning t := by
  obtain ⟨latched, even, fits, index, hidden, phase⟩ := h
  exact ⟨by rw [dec, decTokLen, latched], dec ▸ even, by rwa [dec, capTin], dec ▸ index, count.trans hidden,
    dec ▸ phase⟩

/-- The host's own record is no part of the invariant. -/
theorem Inv.host {s : State} (h : Inv s) (host : List HostOp) (observed : List Word) :
    Inv { s with host := host, observed := observed } where
  caps := h.caps.congr rfl rfl
  status := h.status.congr rfl rfl rfl rfl
  buffers := h.buffers.congr (fun b => by cases b <;> rfl) rfl rfl
  counts := ⟨h.counts.tokens, h.counts.output⟩
  encoding hbusy hop := (h.encoding hbusy hop).congr rfl rfl rfl rfl
  decoding hbusy hop := (h.decoding hbusy hop).congr rfl rfl rfl rfl

/-- A block that is not BUSY has no running engine. -/
theorem Inv.of_free {s : State} (free : s.state ≠ .busy) (caps : CapsLegal s) (status : StatusLegal s)
    (buffers : BuffersLegal s) (counts : CountsLegal s) : Inv s :=
  ⟨caps, status, buffers, counts, fun h => absurd h free, fun h => absurd h free⟩

/-- Settles O40: nothing is written and no engine runs, and the open capacities are bounded by their definitions. -/
theorem invariantHoldsAtReset : Obligations.InvariantHoldsAtReset := by
  have hin : State.reset.capIn = Config.inCapChoice % (2 ^ 32 - 1) + 1 := rfl
  have htin : State.reset.capTin = 2 * (Config.tinCapChoice % (2 ^ 29 - 1) + 1) := rfl
  have caps : CapsLegal State.reset := by constructor <;> omega
  exact .of_free nofun caps (.of_noError nofun rfl rfl (fun _ => rfl) (absurd rfl))
    (.of_empty fun b => by cases b <;> rfl) ⟨Nat.zero_le _, Nat.zero_le _⟩

end Sys2Proof.Machine
end

section
/-! The invariant and the running engines (41_encoder.md section 7, 42_decoder.md section 4). -/

namespace Sys2Proof.Machine

/-! ### The buffers -/

theorem emitted_buffers {s : State} (h : BuffersLegal s) (hrecord : s.enc.tcount.toNat < s.capIn) :
    BuffersLegal (emitted s) := by
  have hpacked : BuffersLegal (putByte s .etbuf (2 * s.enc.tcount.toNat) _) :=
    putByte_buffers (v := packedByte s.enc.off.toNat s.enc.len.toNat) h (show _ < 2 * s.capIn by omega)
  have hlit := putByte_buffers (b := .etbuf) (i := 2 * s.enc.tcount.toNat + 1)
    (v := byteAt s .ibuf (s.enc.pos.toNat + s.enc.len.toNat)) hpacked (show _ < 2 * s.capIn by omega)
  exact hlit.congr (fun b => by cases b <;> rfl) rfl rfl

theorem encStep_buffers {s t : State} (h : BuffersLegal s) (hstep : encStep s = .next t) : BuffersLegal t := by
  obtain ⟨frame, hsame | ⟨-, hrecord, rfl⟩⟩ := encStep_eq_next hstep
  · refine h.congr (fun b => ?_) frame.capIn frame.capTin
    cases b with
    | ibuf => exact frame.ibuf
    | etbuf => exact hsame
    | dtbuf => exact frame.dtbuf
    | obuf => exact frame.obuf
  · exact emitted_buffers h hrecord

/-- A step of the decoder that keeps OBUF keeps every buffer. -/
theorem BuffersLegal.of_obuf {s t : State} (h : BuffersLegal s) (frame : TokenFrame s t) (obuf : t.obuf = s.obuf) :
    BuffersLegal t := by
  refine h.congr (fun b => ?_) frame.capIn frame.capTin
  cases b with
  | ibuf => exact frame.ibuf
  | etbuf => exact frame.etbuf
  | dtbuf => exact frame.dtbuf
  | obuf => exact obuf

theorem appended_buffers {s : State} (b : Byte) (h : BuffersLegal s) (hroom : s.dec.osize.toNat < 4 * s.capTin) :
    BuffersLegal (appended b s) :=
  (putByte_buffers (b := .obuf) (v := b) h hroom).congr (fun b => by cases b <;> rfl) rfl rfl

theorem decCopy_buffers {s t : State} (h : BuffersLegal s) (hstep : decCopy s = .next t) : BuffersLegal t := by
  obtain ⟨hroom, rfl⟩ := decCopy_eq_next hstep
  exact (appended_buffers _ h hroom).of_obuf (countCopied_frame _) rfl

theorem decLit_buffers {s t : State} (h : BuffersLegal s) (hstep : decLit s = .next t) : BuffersLegal t := by
  obtain ⟨hroom, rfl⟩ := decLit_eq_next hstep
  obtain ⟨frame, obuf, -⟩ := nextToken_data (appended s.dec.dlit s)
  exact (appended_buffers _ h hroom).of_obuf frame obuf

theorem copyRun_buffers {k : Nat} {s t : State} (h : BuffersLegal s) (hstep : copyRun k s = .next t) :
    BuffersLegal t := by
  induction k generalizing s with
  | zero => cases hstep; exact h
  | succ k ih =>
    obtain ⟨u, hu, hrest⟩ := andThen_eq_next hstep
    exact ih (decCopy_buffers h hu) hrest

theorem execCpy_buffers {off : Offset} {len : Length} {lit : Byte} {s t : State} (h : BuffersLegal s)
    (hstep : execCpy off len lit s = .next t) : BuffersLegal t := by
  rcases execCpy_cases off len lit s with hreject | ⟨hpass, -⟩
  · cases hreject.symm.trans hstep
    exact h.of_obuf (rejected_spec off len lit s).1 rfl
  · obtain ⟨u, hcopy, hlit⟩ := andThen_eq_next (hpass.symm.trans hstep)
    have hchecked : BuffersLegal (checked off len lit s) := h.of_obuf (checked_frame off len lit s) rfl
    exact decLit_buffers (copyRun_buffers hchecked hcopy) hlit

theorem decStep_buffers {s t : State} (h : BuffersLegal s) (hstep : decStep s = .next t) : BuffersLegal t := by
  cases hphase : s.dec.dphase with
  | fetch =>
    obtain ⟨-, hfetch⟩ := memRead_eq_next ((decStep_fetch hphase).symm.trans hstep)
    obtain ⟨-, hexec⟩ := memRead_eq_next hfetch
    rw [exec_decodeToken] at hexec
    exact execCpy_buffers h hexec
  | check =>
    have hcheck := (decStep_check hphase).symm.trans hstep
    rcases checkThen_cases s .next with ⟨e, -⟩ | ⟨e, -⟩ <;> cases e.symm.trans hcheck
    · exact h.of_obuf (raiseCorrupt_frame s) rfl
    · exact h.of_obuf (setDPhase_frame _ s) rfl
  | copy => exact decCopy_buffers h ((decStep_copy hphase).symm.trans hstep)
  | lit => exact decLit_buffers h ((decStep_lit hphase).symm.trans hstep)

/-! ### One step of the running engine -/

/-- A BUSY block has no error recorded (R43, R44). -/
theorem Inv.busy_noError {s : State} (h : Inv s) (hbusy : s.state = .busy) : s.errCode = .none ∧ s.errInfo = 0 :=
  h.status.noError (by rw [hbusy]; decide)

theorem Inv.after_encStep {s t : State} (h : Inv s) (hbusy : s.state = .busy) (hop : s.lastOp = .encode)
    (hstep : encStep s = .next t) : Inv t := by
  have frame := encStep_frame hstep
  have caps : CapsLegal t := h.caps.congr frame.capIn frame.capTin
  have buffers := encStep_buffers h.buffers hstep
  have output : t.decOutLen.toNat ≤ 4 * t.capTin := by
    rw [frame.decOutLen, frame.capTin]
    exact h.counts.output
  have hopt : t.lastOp = .encode := frame.lastOp.trans hop
  obtain ⟨t', ht', hmove⟩ := encStep_running (h.encoding hbusy hop)
  obtain rfl : t' = t := Host.Outcome.next.inj (ht'.symm.trans hstep)
  rcases hmove with go | fin
  · have hcount : t'.encTokCount = 0 := go.running.hidden
    exact ⟨caps, h.status.congr go.state frame.lastOp go.errCode go.errInfo, buffers,
      ⟨by rw [hcount]; exact Nat.zero_le _, output⟩, fun _ _ => go.running,
      fun _ hdec => LastOp.noConfusion (hopt.symm.trans hdec)⟩
  · obtain ⟨hcode, hinfo⟩ := h.busy_noError hbusy
    refine .of_free (by rw [fin.state]; decide) caps (.of_noError ?_ (fin.errCode.trans hcode) (fin.errInfo.trans hinfo)
      ?_ ?_) buffers ⟨fin.count, output⟩
    · rw [fin.state]; decide
    · rw [fin.state]; exact nofun
    · rw [hopt]; exact fun _ => nofun

theorem Inv.after_decStep {s t : State} (h : Inv s) (hbusy : s.state = .busy) (hop : s.lastOp = .decode)
    (hstep : decStep s = .next t) : Inv t := by
  have frame := (decStep_moves hstep).1
  have caps : CapsLegal t := frame.caps h.caps
  have buffers := decStep_buffers h.buffers hstep
  have tokens : t.encTokCount.toNat ≤ t.capIn := by
    rw [frame.encTokCount, frame.capIn]
    exact h.counts.tokens
  have hopt : t.lastOp = .decode := frame.lastOp.trans hop
  obtain ⟨t', ht', hmove⟩ := decStep_running h.caps (h.decoding hbusy hop)
  obtain rfl : t' = t := Host.Outcome.next.inj (ht'.symm.trans hstep)
  rcases hmove with go | ⟨⟨hdone, hcode, hinfo⟩ | corrupt, hcount⟩
  · have hcount : t'.decOutLen = 0 := go.running.hidden
    exact ⟨caps, h.status.congr go.state frame.lastOp go.errCode go.errInfo, buffers,
      ⟨tokens, by rw [hcount]; exact Nat.zero_le _⟩, fun _ henc => LastOp.noConfusion (hopt.symm.trans henc),
      fun _ _ => go.running⟩
  · obtain ⟨hnone, hzero⟩ := h.busy_noError hbusy
    refine .of_free (by rw [hdone]; decide) caps (.of_noError ?_ (hcode.trans hnone) (hinfo.trans hzero) ?_ ?_) buffers
      ⟨tokens, hcount⟩
    · rw [hdone]; decide
    · rw [hdone]; exact nofun
    · rw [hopt]; exact fun _ => nofun
  · exact .of_free (by rw [corrupt.state]; decide) caps
      (.of_error corrupt.state (.inl ⟨.inl corrupt.errCode, hopt⟩)) buffers ⟨tokens, hcount⟩

theorem Inv.after_engineStep {s t : State} (h : Inv s) (hstep : engineStep s = .next t) : Inv t := by
  rcases engineStep_cases hstep with rfl | ⟨hbusy, hop, henc⟩ | ⟨hbusy, hop, hdec⟩
  · exact h
  · exact h.after_encStep hbusy hop henc
  · exact h.after_decStep hbusy hop hdec

end Sys2Proof.Machine
end

section
/-! The invariant and the commands (45_control.md R200 to R205). -/

namespace Sys2Proof.Machine

/-- The parts of the invariant that a command can touch: it leaves the capacities and the buffers. -/
theorem Inv.command {s t : State} (h : Inv s) (frame : CommandFrame s t) (status : StatusLegal t)
    (counts : CountsLegal t) (encoding : t.state = .busy → t.lastOp = .encode → EncRunning t)
    (decoding : t.state = .busy → t.lastOp = .decode → DecRunning t) : Inv t :=
  ⟨h.caps.congr frame.capIn frame.capTin, status, h.buffers.congr frame.mem frame.capIn frame.capTin, counts, encoding,
    decoding⟩

/-- A command that ends with the block not BUSY. -/
theorem Inv.command_free {s t : State} (h : Inv s) (frame : CommandFrame s t) (free : t.state ≠ .busy)
    (status : StatusLegal t) (counts : CountsLegal t) : Inv t :=
  h.command frame status counts (fun hb => absurd hb free) (fun hb => absurd hb free)

/-- START_ENCODE (R201). -/
theorem Inv.after_startEncode {s t : State} (h : Inv s) (hfree : s.state ≠ .busy) (frame : CommandFrame s t)
    (hexec : exec .startEncode s = .next t) : Inv t := by
  have hcounts : t.encTokCount = 0 → t.decOutLen = s.decOutLen → CountsLegal t := fun htok hout =>
    ⟨by rw [htok]; exact Nat.zero_le _, by rw [hout, frame.capTin]; exact h.counts.output⟩
  by_cases hlen : s.capIn < s.encInLen.toNat
  · cases (exec_startEncode_tooLong hfree hlen).symm.trans hexec
    exact h.command_free frame nofun (.of_error rfl (.inr (.inl ⟨rfl, nofun⟩))) (hcounts rfl rfl)
  · have hfits : s.encInLen.toNat ≤ s.capIn := Nat.not_lt.1 hlen
    by_cases hempty : s.encInLen = 0
    · have hstart := startEncoder_empty (s := acceptStatus .encode s) hempty
      cases (exec_startEncode_accepted hfree hfits).symm.trans hexec
      rw [hstart] at hcounts frame ⊢
      exact h.command_free frame nofun (.of_noError nofun rfl rfl nofun fun _ => nofun) (hcounts rfl rfl)
    · have hstart := startEncoder_nonempty (s := acceptStatus .encode s) hempty
      cases (exec_startEncode_accepted hfree hfits).symm.trans hexec
      rw [hstart] at hcounts frame ⊢
      refine h.command frame (.of_noError nofun rfl rfl nofun fun _ => nofun) (hcounts rfl rfl)
        (fun _ _ => ⟨rfl, hfits, ?_, rfl, Nat.zero_le _⟩) (fun _ => nofun)
      exact Nat.pos_of_ne_zero (mt toNat_eq_zero.1 hempty)

/-- START_DECODE (R202, R223). -/
theorem Inv.after_startDecode {s t : State} (h : Inv s) (hfree : s.state ≠ .busy) (frame : CommandFrame s t)
    (hexec : exec .startDecode s = .next t) : Inv t := by
  have hcounts : t.encTokCount = s.encTokCount → t.decOutLen = 0 → CountsLegal t := fun htok hout =>
    ⟨by rw [htok, frame.capIn]; exact h.counts.tokens, by rw [hout]; exact Nat.zero_le _⟩
  by_cases hlen : s.capTin < s.decTokLen.toNat
  · cases (exec_startDecode_tooLong hfree hlen).symm.trans hexec
    exact h.command_free frame nofun (.of_error rfl (.inr (.inl ⟨rfl, nofun⟩))) (hcounts rfl rfl)
  · have hfits : s.decTokLen.toNat ≤ s.capTin := Nat.not_lt.1 hlen
    cases (exec_startDecode_accepted hfree hfits).symm.trans hexec
    by_cases hodd : s.decTokLen.toNat % 2 = 1
    · have hstart := startDecoder_odd (s := acceptStatus .decode s) hodd
      rw [hstart] at hcounts frame ⊢
      exact h.command_free frame nofun (.of_error rfl (.inl ⟨.inr rfl, rfl⟩)) (hcounts rfl rfl)
    by_cases hempty : s.decTokLen = 0
    · have hstart := startDecoder_empty (s := acceptStatus .decode s) hempty
      rw [hstart] at hcounts frame ⊢
      exact h.command_free frame nofun (.of_noError nofun rfl rfl nofun fun _ => nofun) (hcounts rfl rfl)
    · have heven : s.decTokLen.toNat % 2 = 0 := by omega
      have hpos : s.decTokLen.toNat ≠ 0 := mt toNat_eq_zero.1 hempty
      have hstart := startDecoder_even (s := acceptStatus .decode s) heven hempty
      rw [hstart] at hcounts frame ⊢
      refine h.command frame (.of_noError nofun rfl rfl nofun fun _ => nofun) (hcounts rfl rfl) (fun _ => nofun)
        (fun _ _ => ⟨rfl, heven, hfits, ?_, rfl, Nat.zero_le _⟩)
      show 0 < s.decTokLen.toNat / 2
      omega

/-- Every CMD value (R200). -/
theorem Inv.after_decodeCommand {s t : State} (h : Inv s) {v : Word} (hexec : exec (decodeCommand v) s = .next t) :
    Inv t := by
  obtain ⟨t', ht', frame⟩ := command_completes v s
  obtain rfl : t' = t := Host.Outcome.next.inj (ht'.symm.trans hexec)
  by_cases hbusy : s.state = .busy
  · rw [frame.busy hbusy]
    exact h
  have hcounts : t'.encTokCount = s.encTokCount → t'.decOutLen = s.decOutLen → CountsLegal t' := fun htok hout =>
    ⟨by rw [htok, frame.capIn]; exact h.counts.tokens, by rw [hout, frame.capTin]; exact h.counts.output⟩
  by_cases h1 : v = 1
  · subst h1
    exact h.after_startEncode hbusy frame hexec
  by_cases h2 : v = 2
  · subst h2
    exact h.after_startDecode hbusy frame hexec
  by_cases h3 : v = 3
  · subst h3
    cases (clearResetsStatusOnly s hbusy).symm.trans hexec
    exact h.command_free frame nofun (.of_noError nofun rfl rfl (fun _ => rfl) (absurd rfl)) (hcounts rfl rfl)
  · obtain ⟨hdecode, hillegal, -⟩ := illegalCommandRecordsValue s v hbusy h1 h2 h3
    cases (hdecode ▸ hillegal).symm.trans hexec
    exact h.command_free frame nofun (.of_error rfl (.inr (.inr ⟨rfl, rfl⟩))) (hcounts rfl rfl)

end Sys2Proof.Machine
end

section
/-! The invariant and every step: it is kept, and no engine access faults (20_memory.md R61, R62, R74). -/

namespace Sys2Proof.Machine

/-- An engine's turn differs from the state before it in the host's record alone. -/
theorem EngineTurn.inv {s u : State} (h : Inv s) (turn : EngineTurn s u) : Inv u := by
  rcases turn with ⟨-, rfl⟩ | ⟨rest, -, rfl⟩ | ⟨rest, -, -, rfl⟩
  · exact h
  · exact h.host rest s.observed
  · exact h

/-- A byte written outside BUSY, inside its buffer (R68). -/
theorem Inv.after_putByte {s : State} {b : Buf} {i : Nat} {v : Byte} (h : Inv s) (free : s.state ≠ .busy)
    (inside : i < bufSize s b) : Inv (putByte s b i v) := by
  have counts : CountsLegal (putByte s b i v) := by
    refine ⟨?_, ?_⟩
    · rw [putByte_encTokCount, putByte_capIn]
      exact h.counts.tokens
    · rw [putByte_decOutLen, putByte_capTin]
      exact h.counts.output
  exact .of_free (by rwa [putByte_state]) (h.caps.congr (putByte_capIn ..) (putByte_capTin ..))
    (h.status.congr (putByte_state ..) (putByte_lastOp ..) (putByte_errCode ..) (putByte_errInfo ..))
    (putByte_buffers h.buffers inside) counts

/-- Reset keeps the capacities and empties the rest (R260). -/
theorem Inv.after_reset {s : State} (h : Inv s) : Inv (applyReset s) :=
  .of_free nofun (h.caps.congr rfl rfl) (.of_noError nofun rfl rfl (fun _ => rfl) (absurd rfl))
    (.of_empty fun b => by cases b <;> rfl) ⟨Nat.zero_le _, Nat.zero_le _⟩

/-- Settles O41, by what the step did: the engine, the host's record, a command, a length register, a buffer byte or
reset. -/
theorem everyStepKeepsInvariant : Obligations.EveryStepKeepsInvariant := by
  intro s t h hstep
  rcases step_cases hstep with ⟨u, turn, hengine⟩ | ⟨op, rest, obs, -, rfl⟩ | ⟨v, rest, -, hexec⟩ |
    ⟨v, rest, -, hfree, rfl⟩ | ⟨v, rest, -, hfree, rfl⟩ | ⟨b, i, v, rest, -, hfree, -, hinside, rfl⟩ | ⟨rest, -, rfl⟩
  · exact (turn.inv h).after_engineStep hengine
  · exact h.host rest obs
  · exact (h.host rest s.observed).after_decodeCommand hexec
  · exact .of_free hfree (h.caps.congr rfl rfl) (h.status.congr rfl rfl rfl rfl)
      (h.buffers.congr (fun b => by cases b <;> rfl) rfl rfl) ⟨h.counts.tokens, h.counts.output⟩
  · exact .of_free hfree (h.caps.congr rfl rfl) (h.status.congr rfl rfl rfl rfl)
      (h.buffers.congr (fun b => by cases b <;> rfl) rfl rfl) ⟨h.counts.tokens, h.counts.output⟩
  · exact (h.host rest s.observed).after_putByte hfree (by cases b <;> exact hinside)
  · exact (h.host rest s.observed).after_reset

/-- The running engine of a state that meets the invariant takes its step (R61, R62). -/
theorem Inv.engine_moves {s : State} (h : Inv s) : ∃ t, engineStep s = .next t := by
  unfold engineStep
  split
  · rename_i hbusy
    split
    · rename_i hop
      obtain ⟨t, ht, -⟩ := encStep_running (h.encoding hbusy hop)
      exact ⟨t, ht⟩
    · rename_i hop
      obtain ⟨t, ht, -⟩ := decStep_running h.caps (h.decoding hbusy hop)
      exact ⟨t, ht⟩
    · exact ⟨s, rfl⟩
  all_goals exact ⟨s, rfl⟩

/-- A register access never faults unless the register's own operation does. -/
theorem atRegister_ne_fault {off width : Nat} {f : Reg → Result} {r : Fault} (h : ∀ q, f q ≠ .fault r) :
    atRegister off width f ≠ .fault r := by
  unfold atRegister
  split
  · split
    · exact h _
    · exact nofun
  · exact nofun

theorem writeReg_ne_fault (v : Word) (s : State) (r : Fault) (q : Reg) : writeReg v s q ≠ .fault r := by
  cases q with
  | cmd =>
    obtain ⟨t, ht, -⟩ := command_completes v s
    rw [writeReg, ht]
    exact nofun
  | status | errInfo | encInLen | encTokCount | decTokLen | decOutLen | param | capIn | capTin | reserved => exact nofun

theorem insideBuffer_ne_fault (b : Buf) (i : Nat) (s t : State) (r : Fault) :
    insideBuffer b i s (.next t) ≠ .fault r := by
  unfold insideBuffer
  split <;> exact nofun

/-- Settles O42: only an engine could fault, and its accesses are inside their buffers. -/
theorem noEngineAccessFaults : Obligations.NoEngineAccessFaults := by
  intro s h r
  have engine : ∀ u, Inv u → engineStep u ≠ .fault r := fun u hu => by
    obtain ⟨t, ht⟩ := hu.engine_moves
    rw [ht]
    exact nofun
  unfold step advance
  split
  · exact engine s h
  · rename_i op rest _
    cases op with
    | wait => exact engine _ (h.host rest s.observed)
    | poll =>
      dsimp only
      split
      · exact engine s h
      · exact nofun
    | regRead off width => exact atRegister_ne_fault fun q => nofun
    | regWrite off width v => exact atRegister_ne_fault fun q => writeReg_ne_fault v _ r q
    | bufRead b i => exact insideBuffer_ne_fault b i _ _ r
    | bufWrite b i v => exact insideBuffer_ne_fault b i _ _ r
    | reset => exact nofun

end Sys2Proof.Machine
end

section
/-! A running operation ends (70_reset_and_hazards.md R268). -/

namespace Sys2Proof.Machine

/-- A run reaches `Q` from `P` when every step from `P` reaches `Q`, or keeps `P` and lowers the rank. -/
theorem run_reaches {P Q : State → Prop} {rank : State → Nat}
    (hstep : ∀ s, P s → ∃ t, step s = .next t ∧ (P t ∧ rank t < rank s ∨ Q t)) {s : State} (h : P s) :
    ∃ k t, Sys2Proof.core.run k s = .next t ∧ Q t := by
  induction hr : rank s using Nat.strong_induction_on generalizing s with
  | h n ih =>
    obtain ⟨t, ht, ⟨hP, hlt⟩ | hQ⟩ := hstep s h
    · obtain ⟨k, u, hrun, hQ⟩ := ih (rank t) (hr ▸ hlt) hP rfl
      exact ⟨k + 1, u, (run_succ k ht).trans hrun, hQ⟩
    · exact ⟨1, t, run_succ 0 ht, hQ⟩

/-- With the host done, a step of a running encode is a step of the encoder. -/
theorem step_encoding {s : State} (hbusy : s.state = .busy) (hop : s.lastOp = .encode) (hhost : s.host = []) :
    step s = encStep s := by
  simp only [step, advance, hhost, engineStep, hbusy, hop]

theorem step_decoding {s : State} (hbusy : s.state = .busy) (hop : s.lastOp = .decode) (hhost : s.host = []) :
    step s = decStep s := by
  simp only [step, advance, hhost, engineStep, hbusy, hop]

/-- An operation runs and the host leaves the engine alone. -/
structure Alone (op : LastOp) (s : State) : Prop where
  busy : s.state = .busy
  op : s.lastOp = op
  host : s.host = []

theorem Alone.encoder_step {s : State} (h : Alone .encode s) (hrun : EncRunning s) :
    ∃ t, step s = .next t ∧ EncoderFrame s t ∧ (Alone .encode t ∧ EncContinues s t ∨ EncFinishes s t) := by
  obtain ⟨t, ht, hmove⟩ := encStep_running hrun
  have frame := encStep_frame ht
  refine ⟨t, (step_encoding h.busy h.op h.host).trans ht, frame, hmove.imp_left fun go => ⟨?_, go⟩⟩
  exact ⟨go.state.trans h.busy, frame.lastOp.trans h.op, frame.host.trans h.host⟩

theorem Alone.decoder_step {s : State} (h : Alone .decode s) (hc : CapsLegal s) (hrun : DecRunning s) :
    ∃ t, step s = .next t ∧ TokenFrame s t ∧ (Alone .decode t ∧ DecContinues s t ∨ DecEnds s t) := by
  obtain ⟨t, ht, hmove⟩ := decStep_running hc hrun
  have frame := (decStep_moves ht).1
  refine ⟨t, (step_decoding h.busy h.op h.host).trans ht, frame, hmove.imp_left fun go => ⟨?_, go⟩⟩
  exact ⟨go.state.trans h.busy, frame.lastOp.trans h.op, frame.host.trans h.host⟩

theorem DecEnds.state {s t : State} (h : DecEnds s t) : t.state = .done ∨ t.state = .error :=
  h.status.imp And.left TokenCorrupt.state

theorem encode_ends {s : State} (h : Alone .encode s) (hrun : EncRunning s) :
    ∃ k t, Sys2Proof.core.run k s = .next t ∧ (t.state = .done ∨ t.state = .error) := by
  refine run_reaches (P := fun s => Alone .encode s ∧ EncRunning s) (rank := fun s => encRank s.enc) ?_ ⟨h, hrun⟩
  rintro s ⟨h, hrun⟩
  obtain ⟨t, ht, -, ⟨halone, go⟩ | fin⟩ := h.encoder_step hrun
  · exact ⟨t, ht, .inl ⟨⟨halone, go.running⟩, go.rank⟩⟩
  · exact ⟨t, ht, .inr (.inl fin.state)⟩

theorem decode_ends {s : State} (h : Alone .decode s) (hc : CapsLegal s) (hrun : DecRunning s) :
    ∃ k t, Sys2Proof.core.run k s = .next t ∧ (t.state = .done ∨ t.state = .error) := by
  refine run_reaches (P := fun s => Alone .decode s ∧ CapsLegal s ∧ DecRunning s) (rank := fun s => decRank s.dec) ?_
    ⟨h, hc, hrun⟩
  rintro s ⟨h, hc, hrun⟩
  obtain ⟨t, ht, frame, ⟨halone, go⟩ | fin⟩ := h.decoder_step hc hrun
  · exact ⟨t, ht, .inl ⟨⟨halone, frame.caps hc, go.running⟩, go.rank⟩⟩
  · exact ⟨t, ht, .inr fin.state⟩

/-- Settles O43: the rank of the running engine bounds its steps. -/
theorem everyOperationEnds : Obligations.EveryOperationEnds := by
  intro s h hbusy hhost
  cases hop : s.lastOp with
  | none => exact absurd hop (h.status.busyOp hbusy)
  | encode => exact encode_ends ⟨hbusy, hop, hhost⟩ (h.encoding hbusy hop)
  | decode => exact decode_ends ⟨hbusy, hop, hhost⟩ h.caps (h.decoding hbusy hop)

end Sys2Proof.Machine
end

section
/-! The bytes of a buffer as a sequence (00_scope.md R11). -/

namespace Sys2Proof.Machine

@[simp] theorem length_bufBytes (s : State) (b : Buf) (n : Nat) : (bufBytes s b n).length = n := by
  rw [bufBytes, List.length_map, List.length_range]

theorem getD_bufBytes (s : State) (b : Buf) {n i : Nat} (h : i < n) : (bufBytes s b n).getD i 0 = byteAt s b i := by
  rw [List.getD_eq_getElem _ _ (by simpa using h)]
  simp [bufBytes]

theorem take_bufBytes (s : State) (b : Buf) {n m : Nat} (h : m ≤ n) : (bufBytes s b n).take m = bufBytes s b m := by
  rw [bufBytes, ← List.map_take, List.take_range, Nat.min_eq_left h, bufBytes]

theorem bufBytes_succ (s : State) (b : Buf) (n : Nat) : bufBytes s b (n + 1) = bufBytes s b n ++ [byteAt s b n] := by
  rw [bufBytes, List.range_succ, List.map_append, bufBytes, List.map_singleton]

theorem bufBytes_congr {s t : State} {b : Buf} {n : Nat} (h : ∀ i, i < n → byteAt t b i = byteAt s b i) :
    bufBytes t b n = bufBytes s b n :=
  List.map_congr_left fun i hi => h i (List.mem_range.1 hi)

/-- The rest of a token stream from token `t` on starts with the token's two bytes (R63). -/
theorem drop_bufBytes_token (s : State) (b : Buf) {n t : Nat} (h : 2 * t + 1 < n) :
    (bufBytes s b n).drop (2 * t) =
      byteAt s b (2 * t) :: byteAt s b (2 * t + 1) :: (bufBytes s b n).drop (2 * (t + 1)) := by
  rw [List.drop_eq_getElem_cons (by simp; omega), List.drop_eq_getElem_cons (by simpa using h)]
  simp [bufBytes, Nat.mul_add, Nat.add_assoc]

end Sys2Proof.Machine
end

section
/-! The decoder computes DECODE_F (42_decoder.md R174 to R176). -/

namespace Sys2Proof.Machine

/-! ### One token of DECODE_F -/

theorem decodeFrom_rejects {p lit : Byte} {rest : List Byte} {t : Nat} {out : List Byte}
    (h : out.length < (offsetField p).toNat ∨ (offsetField p).toNat = 0 ∧ 0 < (lengthField p).toNat) :
    decodeFrom (p :: lit :: rest) t out = .corrupt t out := by
  rw [decodeFrom]
  rcases h with hfar | hzero
  · rw [if_pos hfar]
  · rw [if_pos hzero, ite_self]

theorem decodeFrom_passes {p lit : Byte} {rest : List Byte} {t : Nat} {out : List Byte}
    (hhistory : (offsetField p).toNat ≤ out.length) (hzero : offsetField p = 0 → lengthField p = 0) :
    decodeFrom (p :: lit :: rest) t out =
      decodeFrom rest (t + 1) (replay (offsetField p).toNat (lengthField p).toNat out ++ [lit]) := by
  have hrecord : recordBytes (offsetField p).toNat (lengthField p).toNat lit ++ rest = p :: lit :: rest := by
    rw [recordBytes, packedByte_fields]
    rfl
  rw [← hrecord]
  exact decodeFrom_record (by omega) (by omega) hhistory fun h => toNat_eq_zero.2 (hzero (toNat_eq_zero.1 h))

/-- The output after a token that completes is that of DECODE_F's replay and literal (R166, R167). -/
theorem TokenAppends.output {off : Offset} {len : Length} {lit : Byte} {s t : State} (h : TokenAppends off len lit s t)
    (hzero : off = 0 → len = 0) (hhistory : off.toNat ≤ s.dec.osize.toNat) :
    bufBytes t .obuf t.dec.osize.toNat =
      replay off.toNat len.toNat (bufBytes s .obuf s.dec.osize.toNat) ++ [lit] := by
  have hold : bufBytes s .obuf s.dec.osize.toNat = bufBytes t .obuf s.dec.osize.toNat :=
    bufBytes_congr fun i hi => (h.kept i (.inl hi)).symm
  have hoff : 0 < len.toNat → 1 ≤ off.toNat ∧ off.toNat ≤ s.dec.osize.toNat := fun hlen =>
    ⟨Nat.pos_of_ne_zero fun h0 => hlen.ne' (toNat_eq_zero.2 (hzero (toNat_eq_zero.1 h0))), hhistory⟩
  have hreplay := replay_take (inp := bufBytes t .obuf (s.dec.osize.toNat + len.toNat)) len.toNat hoff
    (length_bufBytes ..).ge fun j hj => by
      rw [getD_bufBytes _ _ (by omega), getD_bufBytes _ _ (by omega), h.replayed j hj]
  rw [take_bufBytes _ _ (Nat.le_add_right _ _), take_bufBytes _ _ (Nat.le_refl _)] at hreplay
  rw [hold, hreplay, h.osize, bufBytes_succ, h.literal]

/-! ### The simulation -/

/-- How a decode that started with the contents `obuf` of OBUF stands at the end, for each result of DECODE_F (R168,
R176, R223). -/
def DecodedTo (obuf : Memory) (t : State) : DecResult → Prop
  | .ok out => t.state = .done ∧ t.errCode = .none ∧ t.errInfo = 0 ∧ t.decOutLen.toNat = out.length ∧
      bufBytes t .obuf out.length = out
  | .truncated n => t.state = .error ∧ t.errCode = .truncatedTokenStream ∧ t.errInfo.toNat = n ∧ t.decOutLen = 0 ∧
      t.obuf = obuf
  | .corrupt i out => t.state = .error ∧ t.errCode = .corruptStream ∧ t.errInfo.toNat = i ∧
      t.decOutLen.toNat = out.length ∧ bufBytes t .obuf out.length = out

/-- A decode started at `s` stands in `u` before a token, and DECODE_F, from that token and the output so far, gives
`r`. -/
structure DecodeSim (s : State) (r : DecResult) (u : State) : Prop where
  alone : Alone .decode u
  caps : CapsLegal u
  running : DecRunning u
  frame : TokenFrame s u
  phase : u.dec.dphase = .fetch
  errCode : u.errCode = .none
  errInfo : u.errInfo = 0
  result : decodeFrom ((bufBytes s .dtbuf s.dec.l.toNat).drop (2 * u.dec.tidx.toNat)) u.dec.tidx.toNat
    (bufBytes u .obuf u.dec.osize.toNat) = r

/-- What DECODE_F does at the token of the next step (R174). -/
theorem DecodeSim.token {s u : State} {r : DecResult} (h : DecodeSim s r u) :
    step u = execCpy (offsetField (byteAt s .dtbuf (2 * u.dec.tidx.toNat)))
      (lengthField (byteAt s .dtbuf (2 * u.dec.tidx.toNat))) (byteAt s .dtbuf (2 * u.dec.tidx.toNat + 1)) u ∧
    decodeFrom (byteAt s .dtbuf (2 * u.dec.tidx.toNat) :: byteAt s .dtbuf (2 * u.dec.tidx.toNat + 1) ::
      (bufBytes s .dtbuf s.dec.l.toNat).drop (2 * (u.dec.tidx.toNat + 1))) u.dec.tidx.toNat
      (bufBytes u .obuf u.dec.osize.toNat) = r := by
  have hbyte : ∀ i, byteAt u .dtbuf i = byteAt s .dtbuf i := byteAt_congr h.frame.dtbuf h.frame.resets
  have hindex := h.running.index
  rw [h.frame.latched] at hindex
  refine ⟨?_, drop_bufBytes_token s .dtbuf (t := u.dec.tidx.toNat) (n := s.dec.l.toNat) (by omega) ▸ h.result⟩
  rw [step_decoding h.alone.busy h.alone.op h.alone.host, decStep_fetch h.phase, runToken_inside h.running.token_inside,
    exec_decodeToken, hbyte, hbyte]

/-- A token that completes leads to the next one, or the decode has the output of DECODE_F (R168). -/
theorem DecodeSim.completes {s u t : State} {out : List Byte} {r : DecResult} (h : DecodeSim s r u)
    (frame : TokenFrame u t) (c : TokenCompletes u t) (hsize : t.dec.osize.toNat ≤ 8 * u.dec.tidx.toNat + 8)
    (hout : bufBytes t .obuf t.dec.osize.toNat = out)
    (hresult : decodeFrom ((bufBytes s .dtbuf s.dec.l.toNat).drop (2 * (u.dec.tidx.toNat + 1))) (u.dec.tidx.toNat + 1)
      out = r) :
    DecodeSim s r t ∧ decRank t.dec < decRank u.dec ∨ TokenFrame s t ∧ DecodedTo s.obuf t r := by
  have hframe : TokenFrame s t := h.frame.trans frame
  have hindex := h.running.index
  have hsucc : (u.dec.tidx + 1).toNat = u.dec.tidx.toNat + 1 := toNat_add_one_inside (by omega)
  by_cases hmore : (u.dec.tidx + 1).toNat < u.dec.l.toNat / 2
  · obtain ⟨hstate, -, hphase⟩ := c.more hmore
    have halone : Alone .decode t :=
      ⟨hstate.trans h.alone.busy, frame.lastOp.trans h.alone.op, frame.host.trans h.alone.host⟩
    rcases h.running.completes frame c hsize with go | ⟨⟨hdone, -⟩ | corrupt, -⟩
    · refine .inl ⟨⟨halone, frame.caps h.caps, go.running, hframe, hphase, c.errCode.trans h.errCode,
        c.errInfo.trans h.errInfo, ?_⟩, go.rank⟩
      rw [c.index, hsucc, hout, hresult]
    · exact BlockState.noConfusion (halone.busy.symm.trans hdone)
    · exact BlockState.noConfusion (halone.busy.symm.trans corrupt.state)
  · obtain ⟨hdone, hcount⟩ := c.last hmore
    have heven := h.running.even
    rw [h.frame.latched] at heven hmore
    have hrest : (bufBytes s .dtbuf s.dec.l.toNat).drop (2 * (u.dec.tidx.toNat + 1)) = [] :=
      List.drop_eq_nil_of_le (by rw [length_bufBytes]; omega)
    rw [hrest] at hresult
    have hok : r = .ok out := hresult.symm
    have hlength : t.dec.osize.toNat = out.length := by rw [← hout, length_bufBytes]
    rw [hok]
    exact .inr ⟨hframe, hdone, c.errCode.trans h.errCode, c.errInfo.trans h.errInfo, by rw [hcount, hlength],
      by rw [← hlength, hout]⟩

/-- Each step of a decode is one token of DECODE_F (R174, R175). -/
theorem DecodeSim.step {s u : State} {r : DecResult} (h : DecodeSim s r u) :
    ∃ t, step u = .next t ∧
      (DecodeSim s r t ∧ decRank t.dec < decRank u.dec ∨ TokenFrame s t ∧ DecodedTo s.obuf t r) := by
  obtain ⟨hstep, hresult⟩ := h.token
  generalize byteAt s .dtbuf (2 * u.dec.tidx.toNat + 1) = lit at hstep hresult
  generalize byteAt s .dtbuf (2 * u.dec.tidx.toNat) = p at hstep hresult
  have hlength : (bufBytes u .obuf u.dec.osize.toNat).length = u.dec.osize.toNat := length_bufBytes ..
  rcases checkThen_cases (latchToken (offsetField p) (lengthField p) lit u)
    (fun t => andThen (copyRun (lengthField p).toNat t) decLit) with ⟨e, hreject⟩ | ⟨-, hhistory, hzero⟩
  · obtain ⟨frame, corrupt⟩ := rejected_spec (offsetField p) (lengthField p) lit u
    refine ⟨_, hstep.trans e, .inr ⟨h.frame.trans frame, ?_⟩⟩
    rw [decodeFrom_rejects (hlength.symm ▸ hreject.imp_right fun ⟨hoff, hlen⟩ =>
      ⟨toNat_eq_zero.2 hoff, Nat.pos_of_ne_zero (mt toNat_eq_zero.1 hlen)⟩)] at hresult
    rw [← hresult]
    refine ⟨corrupt.state, corrupt.errCode, by rw [corrupt.errInfo], by rw [corrupt.decOutLen, hlength], ?_⟩
    rw [hlength]
    exact bufBytes_congr fun i _ => byteAt_congr (b := .obuf) corrupt.obuf frame.resets i
  · have hhistory : (offsetField p).toNat ≤ u.dec.osize.toNat := hhistory
    have hzero : offsetField p = 0 → lengthField p = 0 := hzero
    have hosize := (decPhaseLegal_fetch h.phase).1 h.running.phase
    have hroom := h.running.room
    obtain ⟨t, ht, a⟩ := execCpy_appends lit h.caps hzero hhistory (by omega)
    rw [decodeFrom_passes (hlength.symm ▸ hhistory) hzero] at hresult
    have hgrow := a.osize
    exact ⟨t, hstep.trans ht, h.completes a.frame a.completes (by omega) (a.output hzero hhistory) hresult⟩

/-! ### From START_DECODE to the result -/

theorem decodeF_odd {tb : List Byte} (h : tb.length % 2 = 1) : decodeF tb = .truncated tb.length := if_pos h

theorem decodeF_even {tb : List Byte} (h : tb.length % 2 = 0) : decodeF tb = decodeFrom tb 0 [] :=
  if_neg (by omega)

/-- The first token of an accepted, even, non-empty stream is before the decoder (R175). -/
theorem decodeSim_start {s : State} (hc : CapsLegal s) (hhost : s.host = []) (hfits : s.decTokLen.toNat ≤ s.capTin)
    (heven : s.decTokLen.toNat % 2 = 0) (hne : s.decTokLen ≠ 0) :
    DecodeSim (startDecoder (acceptStatus .decode s)) (decodeF (bufBytes s .dtbuf s.decTokLen.toNat))
      (startDecoder (acceptStatus .decode s)) := by
  have hpos : s.decTokLen.toNat ≠ 0 := mt toNat_eq_zero.1 hne
  rw [startDecoder_even (s := acceptStatus .decode s) heven hne]
  refine ⟨⟨rfl, rfl, hhost⟩, hc.congr rfl rfl, ⟨rfl, heven, hfits, ?_, rfl, Nat.zero_le _⟩, .refl _, rfl, rfl, rfl, ?_⟩
  · show 0 < s.decTokLen.toNat / 2
    omega
  · rw [decodeF_even (by rwa [length_bufBytes])]
    rfl

/-- An accepted START_DECODE leads to the result of DECODE_F, the error of an odd length included. -/
theorem startDecoder_reaches {s : State} (hc : CapsLegal s) (hhost : s.host = [])
    (hfits : s.decTokLen.toNat ≤ s.capTin) :
    ∃ k t, Sys2Proof.core.run k (startDecoder (acceptStatus .decode s)) = .next t ∧
      TokenFrame (startDecoder (acceptStatus .decode s)) t ∧
      DecodedTo (startDecoder (acceptStatus .decode s)).obuf t (decodeF (bufBytes s .dtbuf s.decTokLen.toNat)) := by
  by_cases hodd : s.decTokLen.toNat % 2 = 1
  · refine ⟨0, _, rfl, .refl _, ?_⟩
    rw [decodeF_odd (by rwa [length_bufBytes]), startDecoder_odd (s := acceptStatus .decode s) hodd]
    exact ⟨rfl, rfl, (length_bufBytes ..).symm, rfl, rfl⟩
  have heven : s.decTokLen.toNat % 2 = 0 := by omega
  by_cases hempty : s.decTokLen = 0
  · refine ⟨0, _, rfl, .refl _, ?_⟩
    rw [startDecoder_empty (s := acceptStatus .decode s) hempty, hempty]
    exact ⟨rfl, rfl, rfl, rfl, rfl⟩
  · exact run_reaches (rank := fun u => decRank u.dec) (fun _ h => h.step)
      (decodeSim_start hc hhost hfits heven hempty)

/-- What the start of a decode leaves of the encoder's side (R202). -/
theorem startDecoder_encoder (s : State) :
    (startDecoder s).lastOp = s.lastOp ∧ (startDecoder s).enc = s.enc ∧
    (startDecoder s).encTokCount = s.encTokCount := by
  unfold startDecoder
  split
  · exact ⟨rfl, rfl, rfl⟩
  · split <;> exact ⟨rfl, rfl, rfl⟩

/-- Settles O45: the command starts the decoder, and each of its steps is one token of DECODE_F. -/
theorem decoderComputesDecodeF : Obligations.DecoderComputesDecodeF := by
  intro s hc hfree hfits hhost
  have hstart := startDecoder_frame { s with host := [] } hfree
  obtain ⟨hop, henc, hcount⟩ := startDecoder_encoder (acceptStatus .decode { s with host := [] })
  have hstep : step s = .next (startDecoder (acceptStatus .decode { s with host := [] })) :=
    (step_cmdWrite hhost).trans (exec_startDecode_accepted (s := { s with host := [] }) hfree hfits)
  obtain ⟨k, t, hrun, frame, hresult⟩ :=
    startDecoder_reaches (s := { s with host := [] }) (hc.congr rfl rfl) rfl hfits
  rw [show (startDecoder _).obuf = s.obuf from hstart.mem .obuf] at hresult
  refine ⟨k + 1, t, (run_succ k hstep).trans hrun, frame.lastOp.trans hop, ?_, frame.ibuf.trans (hstart.mem .ibuf),
    frame.etbuf.trans (hstart.mem .etbuf), frame.dtbuf.trans (hstart.mem .dtbuf), frame.enc.trans henc,
    frame.encInLen.trans hstart.encInLen, frame.encTokCount.trans hcount, frame.decTokLen.trans hstart.decTokLen⟩
  exact hresult

end Sys2Proof.Machine
end

section
/-! The longest run (41_encoder.md R123). -/

namespace Sys2Proof.Machine

/-- The counted run never passes the end of the input. -/
theorem matchFrom_inside {inp : List Byte} {s pos fuel k : Nat} (h : pos + k ≤ inp.length) :
    pos + matchFrom inp s pos fuel k ≤ inp.length := by
  induction fuel generalizing k with
  | zero => exact h
  | succ fuel ih =>
    rw [matchFrom]
    split
    case isTrue hequal => exact ih (by omega)
    case isFalse => exact h

/-- The count stops at the cap, at the end of the input or at a mismatch, and nowhere else. -/
theorem matchFrom_maximal {inp : List Byte} {s pos fuel k : Nat} (hcap : matchFrom inp s pos fuel k < k + fuel)
    (hend : pos + matchFrom inp s pos fuel k < inp.length) :
    inp.getD (s + matchFrom inp s pos fuel k) 0 ≠ inp.getD (pos + matchFrom inp s pos fuel k) 0 := by
  induction fuel generalizing k with
  | zero => exact absurd hcap (Nat.lt_irrefl k)
  | succ fuel ih =>
    by_cases hequal : pos + k < inp.length ∧ inp.getD (s + k) 0 = inp.getD (pos + k) 0
    · rw [matchFrom, if_pos hequal] at hcap hend ⊢
      exact ih (by omega) hend
    · rw [matchFrom, if_neg hequal] at hend ⊢
      exact fun h => hequal ⟨hend, h⟩

/-- Inside the sequence, a byte read with a default is the byte there. -/
theorem getElem?_eq_iff_getD {inp : List Byte} {i j : Nat} (hi : i < inp.length) (hj : j < inp.length) :
    inp[i]? = inp[j]? ↔ inp.getD i 0 = inp.getD j 0 := by
  rw [List.getD_eq_getElem _ _ hi, List.getD_eq_getElem _ _ hj, List.getElem?_eq_getElem hi,
    List.getElem?_eq_getElem hj, Option.some_inj]

/-- Settles O47, from the bounds of the count, the bytes it counted and the byte where it stopped. -/
theorem matchLengthIsLongestRun : Obligations.MatchLengthIsLongestRun := by
  intro inp s pos hs hpos k
  have hinside : pos + k ≤ inp.length := matchFrom_inside hpos
  refine ⟨matchLength_le_seven inp s pos, hinside, fun j hj => ?_, fun hcap hend => ?_⟩
  · exact (getElem?_eq_iff_getD (by omega) (by omega)).2 (matchFrom_equal (Nat.zero_le j) hj)
  · exact mt (getElem?_eq_iff_getD (by omega) hend).1 (matchFrom_maximal ((Nat.zero_add 7).symm ▸ hcap) hend)

/-- One compare of ML: the run goes on over an equal byte below both caps (R123). -/
theorem matchFrom_compare (inp : List Byte) (s pos : Nat) {k : Nat} (hk : k ≤ 7) :
    matchFrom inp s pos (7 - k) k =
      if k < 7 ∧ pos + k < inp.length ∧ inp.getD (s + k) 0 = inp.getD (pos + k) 0
      then matchFrom inp s pos (7 - (k + 1)) (k + 1) else k := by
  rcases hk.lt_or_eq with hlt | rfl
  · have hfuel : 7 - k = 7 - (k + 1) + 1 := by omega
    rw [hfuel, matchFrom]
    simp only [hlt, true_and]
  · rfl

end Sys2Proof.Machine
end

section
/-! The encoder computes ENCODE_F (41_encoder.md R133, R134). -/

namespace Sys2Proof.Machine

theorem EncoderFrame.trans {s t u : State} (h : EncoderFrame s t) (k : EncoderFrame t u) : EncoderFrame s u :=
  ⟨k.1.trans h.1, k.2.trans h.2, k.3.trans h.3, k.4.trans h.4, k.5.trans h.5, k.6.trans h.6, k.7.trans h.7,
    k.8.trans h.8, k.9.trans h.9, k.10.trans h.10, k.11.trans h.11, k.12.trans h.12, k.13.trans h.13, k.14.trans h.14⟩

/-! ### The search and the token of one cursor -/

/-- How far the datapath registers have computed the token of the cursor (R122 to R127). -/
def SearchSim (inp : List Byte) (e : EncRegs) : Prop :=
  match e.ephase with
  | .search => True
  | .scan =>
    matchFrom inp e.s.toNat e.pos.toNat (7 - e.k.toNat) e.k.toNat = matchLength inp e.s.toNat e.pos.toNat ∧
    scanFrom inp e.pos.toNat (e.pos.toNat - e.s.toNat) e.s.toNat (e.bestLen.toNat, e.bestS.toNat) =
      bestMatch inp e.pos.toNat
  | .clamp => (e.bestLen.toNat, e.bestS.toNat) = bestMatch inp e.pos.toNat
  | .validate | .emit | .advance =>
    e.len.toNat = (tokenAt inp e.pos.toNat).len ∧ e.off.toNat = (tokenAt inp e.pos.toNat).off

section
variable {inp : List Byte} {e : EncRegs}

theorem searchSim_search (h : e.ephase = .search) : SearchSim inp e := by
  rw [SearchSim, h]
  trivial

theorem searchSim_scan (h : e.ephase = .scan) :
    SearchSim inp e ↔
      matchFrom inp e.s.toNat e.pos.toNat (7 - e.k.toNat) e.k.toNat = matchLength inp e.s.toNat e.pos.toNat ∧
      scanFrom inp e.pos.toNat (e.pos.toNat - e.s.toNat) e.s.toNat (e.bestLen.toNat, e.bestS.toNat) =
        bestMatch inp e.pos.toNat := by
  rw [SearchSim, h]

theorem searchSim_clamp (h : e.ephase = .clamp) :
    SearchSim inp e ↔ (e.bestLen.toNat, e.bestS.toNat) = bestMatch inp e.pos.toNat := by
  rw [SearchSim, h]

theorem searchSim_token (h : e.ephase = .validate ∨ e.ephase = .emit ∨ e.ephase = .advance) :
    SearchSim inp e ↔
      e.len.toNat = (tokenAt inp e.pos.toNat).len ∧ e.off.toNat = (tokenAt inp e.pos.toNat).off := by
  rcases h with h | h | h <;> rw [SearchSim, h]

end

/-- The scan starts with the whole window to search (R122, R125). -/
theorem encSearch_sim (inp : List Byte) (u : State) : SearchSim inp (encSearch u).enc := by
  have hwindow := windowStart_toNat u.enc.pos
  by_cases hscan : (windowStart u.enc.pos).toNat < u.enc.pos.toNat
  · refine (searchSim_scan (if_pos hscan)).2 ⟨rfl, ?_⟩
    show scanFrom inp u.enc.pos.toNat (u.enc.pos.toNat - (windowStart u.enc.pos).toNat) (windowStart u.enc.pos).toNat
      (0, u.enc.pos.toNat) = _
    rw [hwindow]
    rfl
  · refine (searchSim_clamp (if_neg hscan)).2 ?_
    have hzero : u.enc.pos.toNat = 0 := by omega
    show (0, u.enc.pos.toNat) = bestMatch inp u.enc.pos.toNat
    rw [hzero]
    rfl

/-- An equal byte is one more of ML (R123). -/
theorem encCountMatch_sim {inp : List Byte} {u : State} (h : SearchSim inp u.enc) (hphase : u.enc.ephase = .scan)
    (hequal : u.enc.k.toNat < 7 ∧ u.enc.pos.toNat + u.enc.k.toNat < inp.length ∧
      inp.getD (u.enc.s.toNat + u.enc.k.toNat) 0 = inp.getD (u.enc.pos.toNat + u.enc.k.toNat) 0) :
    SearchSim inp (encCountMatch u).enc := by
  obtain ⟨hrun, hscan⟩ := (searchSim_scan hphase).1 h
  have hsucc : (u.enc.k + 1).toNat = u.enc.k.toNat + 1 := toNat_add_one_inside (by omega)
  rw [matchFrom_compare _ _ _ hequal.1.le, if_pos hequal] at hrun
  refine (searchSim_scan (e := (encCountMatch u).enc) hphase).2 ⟨?_, hscan⟩
  show matchFrom inp u.enc.s.toNat u.enc.pos.toNat (7 - (u.enc.k + 1).toNat) (u.enc.k + 1).toNat = _
  rw [hsucc]
  exact hrun

/-- The best match after a candidate is that of the scan of ENCODE_F (R124). -/
theorem encNextCandidate_bestPair (u : State) :
    ((encNextCandidate u).enc.bestLen.toNat, (encNextCandidate u).enc.bestS.toNat) =
      if u.enc.bestLen.toNat < u.enc.k.toNat then (u.enc.k.toNat, u.enc.s.toNat)
      else (u.enc.bestLen.toNat, u.enc.bestS.toNat) := by
  simp only [encNextCandidate]
  split <;> rfl

/-- The end of a run is the candidate's ML, and the scan goes on with the next candidate (R124). -/
theorem encNextCandidate_sim {inp : List Byte} {u : State} (h : SearchSim inp u.enc) (hphase : u.enc.ephase = .scan)
    (hs : u.enc.s.toNat < u.enc.pos.toNat) (hk : u.enc.k.toNat ≤ 7)
    (hstop : ¬ (u.enc.k.toNat < 7 ∧ u.enc.pos.toNat + u.enc.k.toNat < inp.length ∧
      inp.getD (u.enc.s.toNat + u.enc.k.toNat) 0 = inp.getD (u.enc.pos.toNat + u.enc.k.toNat) 0)) :
    SearchSim inp (encNextCandidate u).enc := by
  obtain ⟨hrun, hscan⟩ := (searchSim_scan hphase).1 h
  have hsucc : (u.enc.s + 1).toNat = u.enc.s.toNat + 1 := toNat_add_one_inside (by omega)
  rw [matchFrom_compare _ _ _ hk, if_neg hstop] at hrun
  have hcount : u.enc.pos.toNat - u.enc.s.toNat = u.enc.pos.toNat - (u.enc.s.toNat + 1) + 1 := by omega
  rw [hcount, scanFrom, ← hrun, ← encNextCandidate_bestPair] at hscan
  by_cases hlast : u.enc.s + 1 = u.enc.pos
  · rw [searchSim_clamp (if_pos hlast)]
    rw [← hsucc, hlast, Nat.sub_self] at hscan
    exact hscan
  · rw [searchSim_scan (if_neg hlast)]
    refine ⟨rfl, ?_⟩
    show scanFrom inp u.enc.pos.toNat (u.enc.pos.toNat - (u.enc.s + 1).toNat) (u.enc.s + 1).toNat _ = _
    rw [hsucc]
    exact hscan

/-- The clamp and the offset rule give the token of the cursor (R126, R127). -/
theorem encClamp_sim {inp : List Byte} {u : State} (h : SearchSim inp u.enc) (hphase : u.enc.ephase = .clamp)
    (hn : u.enc.n.toNat = inp.length) (hcursor : u.enc.pos.toNat < u.enc.n.toNat)
    (hbefore : u.enc.bestS.toNat ≤ u.enc.pos.toNat) : SearchSim inp (encClamp u).enc := by
  have hbest := (searchSim_clamp hphase).1 h
  have hlen : (clampedLen u).toNat = (tokenAt inp u.enc.pos.toNat).len := by
    rw [clampedLen_toNat hcursor, tokenAt_len, ← hbest, ← hn, clampLength]
  refine (searchSim_token (.inl rfl)).2 ⟨hlen, ?_⟩
  show (tokenOffset u).toNat = (tokenAt inp u.enc.pos.toNat).off
  rw [tokenOffset_toNat hbefore, hlen, tokenAt_off, ← hbest]

theorem encSearch_ne_advance (u : State) : (encSearch u).enc.ephase ≠ .advance := by
  simp only [encSearch]
  split <;> decide

theorem encNextCandidate_ne_advance (u : State) : (encNextCandidate u).enc.ephase ≠ .advance := by
  simp only [encNextCandidate]
  split <;> decide

/-! ### The records written so far -/

/-- The records of `T`, and nothing else, are in ETBUF since the start at `s` (R130). -/
structure Written (s : State) (T : List Token) (u : State) : Prop where
  count : u.enc.tcount.toNat = T.length
  records : bufBytes u .etbuf (2 * T.length) = serialise T
  beyond : ∀ i, 2 * T.length ≤ i → byteAt u .etbuf i = byteAt s .etbuf i

theorem Written.congr {s u t : State} {T : List Token} (h : Written s T u) (tcount : t.enc.tcount = u.enc.tcount)
    (etbuf : t.etbuf = u.etbuf) (resets : t.resets = u.resets) : Written s T t := by
  have hbyte : ∀ i, byteAt t .etbuf i = byteAt u .etbuf i := byteAt_congr (b := .etbuf) etbuf resets
  exact ⟨tcount ▸ h.count, (bufBytes_congr fun i _ => hbyte i).trans h.records,
    fun i hi => (hbyte i).trans (h.beyond i hi)⟩

theorem serialise_append (T : List Token) (t : Token) :
    serialise (T ++ [t]) = serialise T ++ recordBytes t.off t.len t.lit := by
  induction T with
  | nil => exact (List.append_nil _)
  | cons t' T ih => rw [List.cons_append, serialise, serialise, ih, List.append_assoc]

/-- E_EMIT appends the record of the token in the datapath registers (R129, R130). -/
theorem Written.emitted {s u : State} {T : List Token} {tok : Token} (h : Written s T u)
    (hsucc : (u.enc.tcount + 1).toNat = u.enc.tcount.toNat + 1) (off : u.enc.off.toNat = tok.off)
    (len : u.enc.len.toNat = tok.len) (lit : byteAt u .ibuf (u.enc.pos.toNat + u.enc.len.toNat) = tok.lit) :
    Written s (T ++ [tok]) (emitted u) := by
  have hlength : (T ++ [tok]).length = T.length + 1 := List.length_append
  have hpacked : byteAt (Machine.emitted u) .etbuf (2 * T.length) = packedByte tok.off tok.len := by
    rw [byteAt_emitted, h.count, if_neg (by omega), if_pos rfl, off, len]
  have hlit : byteAt (Machine.emitted u) .etbuf (2 * T.length + 1) = tok.lit := by
    rw [byteAt_emitted, h.count, if_pos rfl, lit]
  have hother : ∀ i, i ≠ 2 * T.length → i ≠ 2 * T.length + 1 →
      byteAt (Machine.emitted u) .etbuf i = byteAt u .etbuf i := fun i h0 h1 => by
    rw [byteAt_emitted, h.count, if_neg h1, if_neg h0]
  refine ⟨by rw [hlength, ← h.count]; exact hsucc, ?_, fun i hi => ?_⟩
  · have hold : bufBytes (Machine.emitted u) .etbuf (2 * T.length) = serialise T :=
      (bufBytes_congr fun i hi => hother i (by omega) (by omega)).trans h.records
    rw [hlength, Nat.mul_succ, bufBytes_succ, bufBytes_succ, hold, hpacked, hlit, serialise_append, List.append_assoc]
    rfl
  · rw [hlength] at hi
    rw [hother i (by omega) (by omega), h.beyond i (by omega)]

/-! ### The simulation -/

/-- The input of the encode that runs in `s`. -/
def encInput (s : State) : List Byte := bufBytes s .ibuf s.enc.n.toNat

/-- The cursor of the next token to emit: the one after the current token once its record is written (R131). -/
def nextCursor (e : EncRegs) : Nat :=
  if e.ephase = .advance then e.pos.toNat + e.len.toNat + 1 else e.pos.toNat

/-- `u` has emitted a first part of the tokens `T` and stands before the others. -/
def TokensSim (s : State) (T : List Token) (u : State) : Prop :=
  ∃ done rest, T = done ++ rest ∧ Written s done u ∧ EncodesFrom (encInput s) (nextCursor u.enc) rest

/-- An encode started at `s`, whose input has the tokens `T`, runs in `u`. -/
structure EncodeSim (s : State) (T : List Token) (u : State) : Prop where
  alone : Alone .encode u
  running : EncRunning u
  frame : EncoderFrame s u
  errCode : u.errCode = .none
  errInfo : u.errInfo = 0
  tokens : TokensSim s T u
  search : SearchSim (encInput s) u.enc

/-- The encode that started at `s` ended with the tokens `T` (R132). -/
structure EncodedTo (s : State) (T : List Token) (t : State) : Prop where
  frame : EncoderFrame s t
  state : t.state = .done
  errCode : t.errCode = .none
  errInfo : t.errInfo = 0
  count : t.encTokCount.toNat = T.length
  records : bufBytes t .etbuf (2 * T.length) = serialise T
  beyond : ∀ i, 2 * T.length ≤ i → byteAt t .etbuf i = byteAt s .etbuf i

/-- The bytes the encoder reads are those of its input (R61). -/
theorem EncodeSim.input {s u : State} {T : List Token} (h : EncodeSim s T u) {i : Nat} (hi : i < u.enc.n.toNat) :
    byteAt u .ibuf i = (encInput s).getD i 0 := by
  rw [encInput, getD_bufBytes _ _ (h.frame.latched ▸ hi)]
  exact byteAt_congr (b := .ibuf) h.frame.ibuf h.frame.resets i

theorem EncodeSim.length_input {s u : State} {T : List Token} (h : EncodeSim s T u) :
    u.enc.n.toNat = (encInput s).length := by
  rw [encInput, length_bufBytes, h.frame.latched]

/-- A step that writes no record and leaves the cursor. -/
theorem TokensSim.congr {s u t : State} {T : List Token} (h : TokensSim s T u) (tcount : t.enc.tcount = u.enc.tcount)
    (etbuf : t.etbuf = u.etbuf) (resets : t.resets = u.resets) (pos : t.enc.pos = u.enc.pos)
    (hu : u.enc.ephase ≠ .advance) (ht : t.enc.ephase ≠ .advance) : TokensSim s T t := by
  obtain ⟨done, rest, hT, hwritten, hrest⟩ := h
  rw [nextCursor, if_neg hu] at hrest
  exact ⟨done, rest, hT, hwritten.congr tcount etbuf resets, by rwa [nextCursor, if_neg ht, pos]⟩

/-- The next step keeps the simulation and lowers the rank, or it ends the encode with its tokens. -/
def EncodeSteps (s : State) (T : List Token) (u : State) : Prop :=
  ∃ t, step u = .next t ∧ (EncodeSim s T t ∧ encRank t.enc < encRank u.enc ∨ EncodedTo s T t)

/-- A step of the running encode that keeps the simulation. -/
theorem EncodeSim.goesOn {s u t : State} {T : List Token} (h : EncodeSim s T u) (hstep : encStep u = .next t)
    (go : EncContinues u t) (tokens : TokensSim s T t) (search : SearchSim (encInput s) t.enc) :
    EncodeSteps s T u := by
  have frame := encStep_frame hstep
  refine ⟨t, (step_encoding h.alone.busy h.alone.op h.alone.host).trans hstep, .inl ⟨⟨?_, go.running,
    h.frame.trans frame, go.errCode.trans h.errCode, go.errInfo.trans h.errInfo, tokens, search⟩, go.rank⟩⟩
  exact ⟨go.state.trans h.alone.busy, frame.lastOp.trans h.alone.op, frame.host.trans h.alone.host⟩

/-- The step of E_SCAN does the compare of ML (R123). -/
theorem EncodeSim.scan {s u : State} {T : List Token} (h : EncodeSim s T u) (hphase : u.enc.ephase = .scan) :
    EncodeSteps s T u := by
  obtain ⟨-, hs, -, hk, -⟩ := (encPhaseLegal_scan hphase).1 h.running.phase
  have hcompare : (u.enc.k.toNat < 7 ∧ u.enc.pos.toNat + u.enc.k.toNat < u.enc.n.toNat ∧
        byteAt u .ibuf (u.enc.s.toNat + u.enc.k.toNat) = byteAt u .ibuf (u.enc.pos.toNat + u.enc.k.toNat)) ↔
      u.enc.k.toNat < 7 ∧ u.enc.pos.toNat + u.enc.k.toNat < (encInput s).length ∧
        (encInput s).getD (u.enc.s.toNat + u.enc.k.toNat) 0 =
          (encInput s).getD (u.enc.pos.toNat + u.enc.k.toNat) 0 := by
    rw [← h.length_input]
    refine and_congr_right fun _ => and_congr_right fun hend => ?_
    rw [h.input (by omega), h.input hend]
  have hstep := (encStep_scan hphase).trans (encScan_inside h.running.fits hs.le)
  have hu : u.enc.ephase ≠ .advance := by rw [hphase]; decide
  split at hstep
  case isTrue hequal =>
    exact h.goesOn hstep (encCountMatch_continues h.running hphase hequal.1 hequal.2.1)
      (h.tokens.congr rfl rfl rfl rfl hu hu) (encCountMatch_sim h.search hphase (hcompare.1 hequal))
  case isFalse hstop =>
    exact h.goesOn hstep (encNextCandidate_continues h.running hphase)
      (h.tokens.congr rfl rfl rfl rfl hu (encNextCandidate_ne_advance u))
      (encNextCandidate_sim h.search hphase hs hk (mt hcompare.2 hstop))

/-- A cursor inside the input has its own token first (R131). -/
theorem EncodesFrom.cons_of_lt {inp : List Byte} {pos : Nat} {T : List Token} (h : EncodesFrom inp pos T)
    (hlt : pos < inp.length) :
    ∃ rest, T = tokenAt inp pos :: rest ∧ EncodesFrom inp (pos + (tokenAt inp pos).len + 1) rest := by
  cases h with
  | done => exact absurd hlt (Nat.lt_irrefl _)
  | token _ rest => exact ⟨_, rfl, rest⟩

/-- At the end of the input no token is left (R132). -/
theorem EncodesFrom.nil_of_le {inp : List Byte} {pos : Nat} {T : List Token} (h : EncodesFrom inp pos T)
    (hle : inp.length ≤ pos) : T = [] := by
  cases h with
  | done => rfl
  | token hlt _ => exact absurd hlt (Nat.not_lt.2 hle)

/-- E_EMIT moves the token of the cursor to those emitted (R130). -/
theorem TokensSim.emitted {s u : State} {T : List Token} (h : EncodeSim s T u) (hphase : u.enc.ephase = .emit) :
    TokensSim s T (Machine.emitted u) := by
  obtain ⟨done, rest, hT, hwritten, hrest⟩ := h.tokens
  obtain ⟨hlen, hoff⟩ := (searchSim_token (.inr (.inl hphase))).1 h.search
  obtain ⟨hcount, htoken⟩ := (encPhaseLegal_emit hphase).1 h.running.phase
  have hcursor := h.running.cursor
  have hsucc : (u.enc.tcount + 1).toNat = u.enc.tcount.toNat + 1 := toNat_add_one_inside (by omega)
  rw [nextCursor, if_neg (by rw [hphase]; decide)] at hrest
  obtain ⟨rest', rfl, hrest'⟩ := hrest.cons_of_lt (h.length_input ▸ hcursor)
  refine ⟨done ++ [tokenAt (encInput s) u.enc.pos.toNat], rest', by rw [hT, List.append_cons], ?_, ?_⟩
  · exact hwritten.emitted hsucc hoff hlen (by rw [h.input htoken.literal, hlen, tokenAt_lit])
  · rw [← hlen] at hrest'
    exact hrest'

/-- E_ADVANCE goes to the next cursor, or the last token was emitted and the encode ends (R131, R132). -/
theorem EncodeSim.advance {s u : State} {T : List Token} (h : EncodeSim s T u) (hphase : u.enc.ephase = .advance) :
    EncodeSteps s T u := by
  obtain ⟨done, rest, hT, hwritten, hrest⟩ := h.tokens
  obtain ⟨-, htoken⟩ := (encPhaseLegal_advance hphase).1 h.running.phase
  have hliteral := htoken.literal
  have hstep := encStep_advance hphase
  have hframe := encAdvance_frame u
  have hmove := encAdvance_running h.running hphase
  rw [nextCursor, if_pos hphase, ← advanced_pos (s := u) (by omega)] at hrest
  rcases encAdvance_cases u with ⟨e, -⟩ | ⟨e, hend⟩ <;> rw [e] at hstep hframe hmove
  · rcases hmove with go | fin
    · exact h.goesOn hstep go ⟨done, rest, hT, hwritten.congr rfl rfl rfl, hrest⟩ (searchSim_search rfl)
    · exact BlockState.noConfusion (h.alone.busy.symm.trans fin.state)
  · obtain rfl := hrest.nil_of_le (h.length_input ▸ Nat.not_lt.1 hend)
    obtain rfl : T = done := hT.trans (List.append_nil done)
    have hlast : Written s T (finish .encoder (advanced u)) := hwritten.congr rfl rfl rfl
    exact ⟨_, (step_encoding h.alone.busy h.alone.op h.alone.host).trans hstep, .inr ⟨h.frame.trans hframe, rfl,
      h.errCode, h.errInfo, hlast.count, hlast.records, hlast.beyond⟩⟩

/-- Each step of an encode is one of ENCODE_F's computation (R133, R134). -/
theorem EncodeSim.step {s u : State} {T : List Token} (h : EncodeSim s T u) : EncodeSteps s T u := by
  cases hphase : u.enc.ephase with
  | search =>
    exact h.goesOn (encStep_search hphase) (encSearch_continues h.running hphase)
      (h.tokens.congr rfl rfl rfl rfl (by rw [hphase]; decide) (encSearch_ne_advance u)) (encSearch_sim _ u)
  | scan => exact h.scan hphase
  | clamp =>
    obtain ⟨-, hbest⟩ := (encPhaseLegal_clamp hphase).1 h.running.phase
    exact h.goesOn (encStep_clamp hphase) (encClamp_continues h.running hphase)
      (h.tokens.congr rfl rfl rfl rfl (by rw [hphase]; decide) nofun)
      (encClamp_sim h.search hphase h.length_input h.running.cursor hbest.before)
  | validate =>
    have hgo := encValidate_continues h.running hphase
    have hstep := encStep_validate hphase
    rw [encValidate_running h.running hphase] at hgo hstep
    exact h.goesOn hstep hgo (h.tokens.congr rfl rfl rfl rfl (by rw [hphase]; decide) nofun)
      ((searchSim_token (.inr (.inl rfl))).2 ((searchSim_token (.inl hphase)).1 h.search))
  | emit =>
    exact h.goesOn ((encStep_emit hphase).trans (encEmit_running h.running hphase)) (emitted_continues h.running hphase)
      (.emitted h hphase)
      ((searchSim_token (.inr (.inr rfl))).2 ((searchSim_token (.inr (.inl hphase))).1 h.search))
  | advance => exact h.advance hphase

/-! ### From START_ENCODE to the tokens -/

/-- An accepted START_ENCODE leads to the tokens of ENCODE_F, none for an empty input (R134). -/
theorem startEncoder_reaches {s : State} {T : List Token} (hhost : s.host = [])
    (hfits : s.encInLen.toNat ≤ s.capIn) (hT : encodeF (bufBytes s .ibuf s.encInLen.toNat) = .ok T) :
    ∃ k t, Sys2Proof.core.run k (startEncoder (acceptStatus .encode s)) = .next t ∧
      EncodedTo (startEncoder (acceptStatus .encode s)) T t := by
  by_cases hempty : s.encInLen = 0
  · obtain rfl : T = [] := by
      rw [hempty] at hT
      exact (EncResult.ok.inj hT).symm
    rw [startEncoder_empty (s := acceptStatus .encode s) hempty]
    exact ⟨0, _, rfl, .refl _, rfl, rfl, rfl, rfl, rfl, fun _ _ => rfl⟩
  · have hpos : 0 < s.encInLen.toNat := Nat.pos_of_ne_zero (mt toNat_eq_zero.1 hempty)
    refine run_reaches (P := EncodeSim (startEncoder (acceptStatus .encode s)) T) (rank := fun u => encRank u.enc)
      (fun _ h => h.step) ?_
    rw [startEncoder_nonempty (s := acceptStatus .encode s) hempty]
    exact ⟨⟨rfl, rfl, hhost⟩, ⟨rfl, hfits, hpos, rfl, Nat.zero_le _⟩, .refl _, rfl, rfl,
      ⟨[], T, rfl, ⟨rfl, rfl, fun _ _ => rfl⟩, encodesFrom_of_encodeF hT⟩, searchSim_search rfl⟩

/-- What the start of an encode leaves of the decoder's side (R201). -/
theorem startEncoder_decoder (s : State) :
    (startEncoder s).lastOp = s.lastOp ∧ (startEncoder s).dec = s.dec ∧
    (startEncoder s).decOutLen = s.decOutLen := by
  unfold startEncoder
  split <;> exact ⟨rfl, rfl, rfl⟩

/-- Settles O44: the command starts the encoder, and its steps compute the tokens of ENCODE_F one after the other. -/
theorem encoderComputesEncodeF : Obligations.EncoderComputesEncodeF := by
  intro s _ hfree hfits hhost
  have hstart := startEncoder_frame { s with host := [] } hfree
  obtain ⟨hop, hdec, hcount⟩ := startEncoder_decoder (acceptStatus .encode { s with host := [] })
  have hstep : step s = .next (startEncoder (acceptStatus .encode { s with host := [] })) :=
    (step_cmdWrite hhost).trans (exec_startEncode_accepted (s := { s with host := [] }) hfree hfits)
  obtain ⟨T, hT⟩ := encodeNeverDomain (bufBytes s .ibuf s.encInLen.toNat)
  obtain ⟨k, t, hrun, h⟩ := startEncoder_reaches (s := { s with host := [] }) rfl hfits hT
  have hbyte : ∀ i, byteAt (startEncoder (acceptStatus .encode { s with host := [] })) .etbuf i = byteAt s .etbuf i :=
    byteAt_congr (b := .etbuf) (hstart.mem .etbuf) hstart.resets
  exact ⟨k + 1, t, T, (run_succ k hstep).trans hrun, hT, h.state, h.frame.lastOp.trans hop, h.errCode, h.errInfo,
    h.count, h.records, fun i hi => (h.beyond i hi).trans (hbyte i), h.frame.ibuf.trans (hstart.mem .ibuf),
    h.frame.dtbuf.trans (hstart.mem .dtbuf), h.frame.obuf.trans (hstart.mem .obuf), h.frame.dec.trans hdec,
    h.frame.encInLen.trans hstart.encInLen, h.frame.decTokLen.trans hstart.decTokLen,
    h.frame.decOutLen.trans hcount⟩

end Sys2Proof.Machine
end

section
/-! STATUS (10_state.md R43). -/

namespace Sys2Proof.Machine

theorem BlockState.code_lt (b : BlockState) : b.code < 4 := by cases b <;> decide

theorem LastOp.code_lt (o : LastOp) : o.code < 4 := by cases o <;> decide

theorem ErrCode.code_lt (e : ErrCode) : e.code < 16 := by cases e <;> decide

/-- No field of STATUS overlaps another. -/
theorem toNat_statusWord (s : State) :
    (statusWord s).toNat = s.state.code + s.lastOp.code * 4 + s.errCode.code * 256 := by
  have hstate := s.state.code_lt
  have hop := s.lastOp.code_lt
  have hcode := s.errCode.code_lt
  rw [statusWord, BitVec.toNat_ofNat, Nat.mod_eq_of_lt] <;> omega

/-- A field of STATUS, as the digits of its number. -/
theorem extract_statusWord (s : State) (start len n : Nat)
    (h : (s.state.code + s.lastOp.code * 4 + s.errCode.code * 256) / 2 ^ start % 2 ^ len = n) :
    (statusWord s).extractLsb' start len = BitVec.ofNat len n := by
  rw [← h, ← toNat_statusWord]
  apply BitVec.eq_of_toNat_eq
  rw [BitVec.extractLsb'_toNat, Nat.shiftRight_eq_div_pow, BitVec.toNat_ofNat, Nat.mod_mod]

/-- Settles O26: each field is its code, by the ranges of the three codes. -/
theorem statusFields : Obligations.StatusFields := by
  intro s
  have hstate := s.state.code_lt
  have hop := s.lastOp.code_lt
  have hcode := s.errCode.code_lt
  refine ⟨(extract_statusWord s 0 2 s.state.code (by omega)).trans ?_,
    (extract_statusWord s 2 2 s.lastOp.code (by omega)).trans ?_, extract_statusWord s 4 4 0 (by omega),
    (extract_statusWord s 8 4 s.errCode.code (by omega)).trans ?_, extract_statusWord s 12 20 0 (by omega)⟩
  · cases s.state <;> rfl
  · cases s.lastOp <;> rfl
  · cases s.errCode <;> rfl

theorem statusWord_eq {s : State} {b : BlockState} {o : LastOp} {e : ErrCode} (hstate : s.state = b)
    (hop : s.lastOp = o) (hcode : s.errCode = e) :
    statusWord s = BitVec.ofNat 32 (b.code + o.code * 2 ^ 2 + e.code * 2 ^ 8) := by
  rw [statusWord, hstate, hop, hcode]

/-- The STATUS of a block without an error, by STATE and LAST_OP. -/
theorem StatusLegal.noError_status {s : State} (h : StatusLegal s) (hne : s.state ≠ .error) :
    statusWord s ∈ ([0x00000000, 0x00000005, 0x00000009, 0x00000006, 0x0000000A] : List Word) := by
  obtain ⟨hcode, -⟩ := h.noError hne
  cases hstate : s.state with
  | idle => rw [statusWord_eq hstate (h.idleOp hstate) hcode]; decide
  | busy =>
    cases hop : s.lastOp with
    | none => exact absurd hop (h.busyOp hstate)
    | encode | decode => rw [statusWord_eq hstate hop hcode]; decide
  | done =>
    cases hop : s.lastOp with
    | none => exact absurd hop (h.doneOp hstate)
    | encode | decode => rw [statusWord_eq hstate hop hcode]; decide
  | error => exact absurd hstate hne

/-- The STATUS of a block after an error, by ERR_CODE and LAST_OP. -/
theorem StatusLegal.error_status {s : State} (h : StatusLegal s) (hstate : s.state = .error) :
    statusWord s ∈ ([0x0000020B, 0x0000030B, 0x00000407, 0x0000040B, 0x00000503] : List Word) := by
  cases hcode : s.errCode with
  | none => exact absurd hcode (h.someError hstate)
  | domain => exact absurd hcode h.notDomain
  | corruptStream => rw [statusWord_eq hstate (h.streamOp (.inl hcode)) hcode]; decide
  | truncatedTokenStream => rw [statusWord_eq hstate (h.streamOp (.inr hcode)) hcode]; decide
  | lengthError =>
    cases hop : s.lastOp with
    | none => exact absurd hop (h.lengthOp hcode)
    | encode | decode => rw [statusWord_eq hstate hop hcode]; decide
  | illegalCommand => rw [statusWord_eq hstate (h.illegalOp hcode) hcode]; decide

/-- Settles O27: without an error STATE and LAST_OP decide the value, after one LAST_OP and ERR_CODE do. -/
theorem statusValuesThatOccur : Obligations.StatusValuesThatOccur := by
  intro s h
  by_cases hstate : s.state = .error
  · exact List.mem_append_right [0x00000000, 0x00000005, 0x00000009, 0x00000006, 0x0000000A]
      (h.status.error_status hstate)
  · exact List.mem_append_left [0x0000020B, 0x0000030B, 0x00000407, 0x0000040B, 0x00000503]
      (h.status.noError_status hstate)

end Sys2Proof.Machine
end

section
/-! One step that carries out a host access to a buffer, a reset, or an access outside the map (20_memory.md R60 to R74,
70_reset_and_hazards.md R260). -/

namespace Sys2Proof.Machine

/-! ### Buffers -/

/-- The host's record is no part of a buffer. -/
@[simp] theorem bufMem_host (s : State) (host : List HostOp) (b : Buf) :
    bufMem { s with host := host } b = bufMem s b := by cases b <;> rfl

@[simp] theorem bufSize_host (s : State) (host : List HostOp) (b : Buf) :
    bufSize { s with host := host } b = bufSize s b := by cases b <;> rfl

@[simp] theorem byteAt_host (s : State) (host : List HostOp) (b : Buf) (i : Nat) :
    byteAt { s with host := host } b i = byteAt s b i := byteAt_congr (bufMem_host s host b) rfl i

theorem putByte_host_eq (s : State) (host : List HostOp) (b : Buf) (i : Nat) (v : Byte) :
    putByte { s with host := host } b i v = { setBufMem s b (writeCell (bufMem s b) i v) with host := host } := by
  cases b <;> rfl

theorem insideBuffer_inside {b : Buf} {i : Nat} {s : State} (r : Result) (h : i < bufSize s b) :
    insideBuffer b i s r = r := if_pos h

theorem insideBuffer_outside {b : Buf} {i : Nat} {s : State} (r : Result) (h : bufSize s b ≤ i) :
    insideBuffer b i s r = .refused (.outsideBuffer b i) := if_neg (Nat.not_lt.2 h)

theorem step_bufWrite {s : State} {b : Buf} {i : Nat} {v : Byte} {rest : List HostOp}
    (hs : s.host = .bufWrite b i v :: rest) : step s = hostBufWrite b i v { s with host := rest } := by
  simp only [step, advance, hs]

theorem step_bufRead {s : State} {b : Buf} {i : Nat} {rest : List HostOp} (hs : s.host = .bufRead b i :: rest) :
    step s = hostBufRead b i { s with host := rest } := by
  simp only [step, advance, hs]

/-- Settles O30: the lock and the kind of the buffer decide whether the write is kept; a kept write is one byte. -/
theorem hostBufferWrites : Obligations.HostBufferWrites := by
  intro s b i v rest hs hinside
  have hstep := (step_bufWrite hs).trans (insideBuffer_inside _ ((bufSize_host s rest b).symm ▸ hinside))
  refine ⟨fun hdropped => hstep.trans (congrArg Host.Outcome.next (if_neg ?_)), fun hfree hwritable => ?_⟩
  · rintro ⟨hfree, hwritable⟩
    rcases hdropped with hbusy | rfl | rfl
    · exact hfree hbusy
    all_goals exact Bool.false_ne_true hwritable
  · have hkept : hostWritable b = true := by rcases hwritable with rfl | rfl <;> rfl
    refine ⟨writeCell (bufMem s b) i v, hstep.trans (congrArg Host.Outcome.next ?_), readCell_writeCell_same _ i v,
      fun j hj => readCell_writeCell_other _ i j v hj⟩
    exact (if_pos ⟨hfree, hkept⟩).trans (putByte_host_eq s rest b i v)

/-- Within the valid range a read returns the byte there (R72). -/
theorem hostByte_valid {s : State} {b : Buf} {i : Nat} (h : hostValid s b i = true) : hostByte s b i = byteAt s b i :=
  if_pos h

/-- The byte a host read returns: 0x00 behind the lock (R68). -/
def readByte (s : State) (b : Buf) (i : Nat) : Byte := if s.state = .busy then 0 else hostByte s b i

theorem readByte_valid {s : State} {b : Buf} {i : Nat} (hfree : s.state ≠ .busy) (h : hostValid s b i = true) :
    readByte s b i = byteAt s b i := (if_neg hfree).trans (hostByte_valid h)

theorem hostBufRead_inside {s : State} {b : Buf} {i : Nat} (h : i < bufSize s b) :
    hostBufRead b i s = .next (observe ((readByte s b i).setWidth 32) s) := by
  rw [hostBufRead, insideBuffer_inside _ h, readByte]
  split <;> rfl

/-- Settles O31: behind the lock the read is 0x00, and within the valid range it is the byte there. -/
theorem hostBufferReads : Obligations.HostBufferReads := by
  intro s b i rest hs hinside
  have hbyte := byteAt_host s rest b i
  refine ⟨readByte { s with host := rest } b i,
    (step_bufRead hs).trans (hostBufRead_inside ((bufSize_host s rest b).symm ▸ hinside)), fun hbusy => if_pos hbusy,
    fun hfree hinput => ?_, fun hfree houtput hvalid => ?_, fun hfree houtput hvalid => ?_⟩
  · refine (readByte_valid hfree ?_).trans hbyte
    rcases hinput with rfl | rfl <;> rfl
  · subst houtput
    exact (readByte_valid (s := { s with host := rest }) (b := .etbuf) hfree (decide_eq_true hvalid)).trans hbyte
  · subst houtput
    exact (readByte_valid (s := { s with host := rest }) (b := .obuf) hfree (decide_eq_true hvalid)).trans hbyte

/-! ### Reset and the platform's accesses -/

/-- Settles O33: the step is `applyReset`, which takes every register but the capacities from `State.reset`. -/
theorem resetAtAnyTime : Obligations.ResetAtAnyTime := by
  intro s rest hs
  have hstep : step s = .next (applyReset { s with host := rest }) := by simp only [step, advance, hs]
  have hstatus : statusWord (applyReset { s with host := rest }) = 0x00000000 :=
    statusWord_eq (b := .idle) (o := .none) (e := .none) rfl rfl rfl
  exact ⟨_, hstep, rfl, rfl, rfl, rfl, hstatus, rfl, rfl, rfl, rfl, rfl, rfl, rfl, rfl, fun b i => by cases b <;> rfl⟩

theorem step_regRead_eq {s : State} {off width : Nat} {rest : List HostOp} (hs : s.host = .regRead off width :: rest) :
    step s = hostRegRead off width { s with host := rest } := by
  simp only [step, advance, hs]

theorem step_regWrite_eq {s : State} {off width : Nat} {v : Word} {rest : List HostOp}
    (hs : s.host = .regWrite off width v :: rest) : step s = hostRegWrite off width v { s with host := rest } := by
  simp only [step, advance, hs]

/-- R65: only an aligned 32-bit access reaches a register. -/
theorem atRegister_other {off width : Nat} (f : Reg → Result) (h : width ≠ 4 ∨ off % 4 ≠ 0) :
    atRegister off width f = .refused (.registerAccessOther off width) := by
  refine if_neg fun hword => ?_
  obtain ⟨hwidth, halign⟩ := Bool.and_eq_true_iff.1 hword
  exact h.elim (· (beq_iff_eq.1 hwidth)) (· (beq_iff_eq.1 halign))

/-- R41: the window ends at 0x3C. -/
theorem regAt_outside {off : Nat} (h : 0x40 ≤ off) : regAt off = none := by
  unfold regAt
  split
  case h_17 => rfl
  all_goals omega

theorem atRegister_outside {off : Nat} (f : Reg → Result) (halign : off % 4 = 0) (h : 0x40 ≤ off) :
    atRegister off 4 f = .refused (.outsideRegisterWindow off) := by
  have hword : wordAccess off 4 = true := by simp [wordAccess, halign]
  rw [atRegister, if_pos hword, regAt_outside h]

/-- Settles O32: the alignment, the window and the buffer's size are checked before the access. -/
theorem accessesOutsideTheMapRefused : Obligations.AccessesOutsideTheMapRefused := by
  refine fun s rest => ⟨fun off width v h => ⟨fun hs => ?_, fun hs => ?_⟩,
    fun off v halign h => ⟨fun hs => ?_, fun hs => ?_⟩, fun b i v h => ⟨fun hs => ?_, fun hs => ?_⟩⟩
  · exact (step_regRead_eq hs).trans (atRegister_other _ h)
  · exact (step_regWrite_eq hs).trans (atRegister_other _ h)
  · exact (step_regRead_eq hs).trans (atRegister_outside _ halign h)
  · exact (step_regWrite_eq hs).trans (atRegister_outside _ halign h)
  · exact (step_bufRead hs).trans (insideBuffer_outside _ ((bufSize_host s rest b).symm ▸ h))
  · exact (step_bufWrite hs).trans (insideBuffer_outside _ ((bufSize_host s rest b).symm ▸ h))

end Sys2Proof.Machine
end

section
/-! A step runs the decoded instruction (30_encoding.md R89, 42_decoder.md R162; log 1, log 16, log 19). -/

namespace Sys2Proof.Machine

/-- The engine of a running decode, before a token inside DTBUF, executes the token. -/
theorem engineStep_token {s : State} (hbusy : s.state = .busy) (hop : s.lastOp = .decode)
    (hphase : s.dec.dphase = .fetch) (hinside : 2 * s.dec.tidx.toNat + 1 < s.capTin) :
    engineStep s = exec (decodeToken (byteAt s .dtbuf (2 * s.dec.tidx.toNat))
      (byteAt s .dtbuf (2 * s.dec.tidx.toNat + 1))) s := by
  have hengine : engineStep s = decStep s := by simp only [engineStep, hbusy, hop]
  rw [hengine, decStep_fetch hphase, runToken_inside hinside]

theorem step_wait {s : State} {rest : List HostOp} (hs : s.host = .wait :: rest) :
    step s = engineStep { s with host := rest } := by
  simp only [step, advance, hs]

/-- Settles O9: in each of the three cases the engine has its turn. -/
theorem stepRunsDecodedToken : Obligations.StepRunsDecodedToken := by
  intro s hbusy hop hphase hinside i
  have hengine : engineStep s = exec i s := engineStep_token hbusy hop hphase hinside
  refine ⟨fun hs => ?_, fun rest hs => ?_, fun rest hs => ?_⟩
  · exact Eq.trans (by simp only [step, advance, hs]) hengine
  · have htoken := engineStep_token (s := { s with host := rest }) hbusy hop hphase hinside
    rw [byteAt_host, byteAt_host] at htoken
    exact (step_wait hs).trans htoken
  · exact Eq.trans (by simp only [step, advance, hs, hbusy, if_true]) hengine

/-- Settles O10: the register at offset 0 is CMD. -/
theorem stepRunsDecodedCommand : Obligations.StepRunsDecodedCommand := fun _ _ _ hs => step_cmdWrite hs

/-- A placed token stands in DTBUF at tidx. -/
theorem placeToken_bytes (p lit : Byte) (s : State) :
    byteAt (placeToken p lit s) .dtbuf (2 * s.dec.tidx.toNat) = p ∧
    byteAt (placeToken p lit s) .dtbuf (2 * s.dec.tidx.toNat + 1) = lit := by
  have hbyte : ∀ i, byteAt (placeToken p lit s) .dtbuf i =
      byteAt (putByte (putByte s .dtbuf (2 * s.dec.tidx.toNat) p) .dtbuf (2 * s.dec.tidx.toNat + 1) lit) .dtbuf i :=
    byteAt_congr rfl rfl
  refine ⟨?_, (hbyte _).trans (byteAt_putByte_same _ _ _ _)⟩
  rw [hbyte, byteAt_putByte_index _ _ _ _ _ (by omega), byteAt_putByte_same]

/-- Settles O11: a command is the host's next write; a token is the next of a running decode. -/
theorem placedWordRunsNext : Obligations.PlacedWordRunsNext := by
  refine fun s w => ⟨?_, fun hinside => ?_⟩
  · exact step_cmdWrite (s := placeCommand (BitVec.ofNat 32 w) s) rfl
  · obtain ⟨hp, hlit⟩ := placeToken_bytes (tok16Packed w) (tok16Literal w) s
    have htoken := engineStep_token
      (s := { placeToken (tok16Packed w) (tok16Literal w) s with host := s.host }) rfl rfl rfl hinside
    rw [byteAt_host, byteAt_host] at htoken
    refine (step_wait (s := placeToken (tok16Packed w) (tok16Literal w) s) rfl).trans (htoken.trans ?_)
    exact congrArg (exec · _) (congrArg₂ decodeToken hp hlit)

end Sys2Proof.Machine
end

section
/-! What a step can change: the capacities, the buffers and STATE (20_memory.md R60 to R62, 10_state.md R40). -/

namespace Sys2Proof.Machine

/-- What every step of an engine leaves alone, whichever engine it is. -/
theorem engineStep_frame {s t : State} (h : engineStep s = .next t) :
    t.capIn = s.capIn ∧ t.capTin = s.capTin ∧ t.ibuf = s.ibuf ∧ t.dtbuf = s.dtbuf ∧
    (t.etbuf ≠ s.etbuf → s.state = .busy ∧ s.lastOp = .encode) ∧
    (t.obuf ≠ s.obuf → s.state = .busy ∧ s.lastOp = .decode) := by
  rcases engineStep_cases h with rfl | ⟨hbusy, hop, henc⟩ | ⟨hbusy, hop, hdec⟩
  · exact ⟨rfl, rfl, rfl, rfl, absurd rfl, absurd rfl⟩
  · have frame := encStep_frame henc
    exact ⟨frame.capIn, frame.capTin, frame.ibuf, frame.dtbuf, fun _ => ⟨hbusy, hop⟩, absurd frame.obuf⟩
  · obtain ⟨frame, -⟩ := decStep_moves hdec
    exact ⟨frame.capIn, frame.capTin, frame.ibuf, frame.dtbuf, absurd frame.etbuf, fun _ => ⟨hbusy, hop⟩⟩

/-- A command the host writes, in the state without it. -/
theorem command_frame {s t : State} {v : Word} (h : exec (decodeCommand v) s = .next t) : CommandFrame s t := by
  obtain ⟨t', ht', frame⟩ := command_completes v s
  rwa [← Host.Outcome.next.inj (ht'.symm.trans h)]

/-- Settles O34: neither an engine nor the host reaches the capacities. -/
theorem capacitiesNeverChange : Obligations.CapacitiesNeverChange := by
  intro s t hstep
  rcases step_cases hstep with ⟨u, turn, hengine⟩ | ⟨op, rest, obs, -, rfl⟩ | ⟨v, rest, -, hexec⟩ |
    ⟨v, rest, -, -, rfl⟩ | ⟨v, rest, -, -, rfl⟩ | ⟨b, i, v, rest, -, -, -, -, rfl⟩ | ⟨rest, -, rfl⟩
  · obtain ⟨-, -, -, -, hin, htin, -⟩ := turn.engine
    obtain ⟨hin', htin', -⟩ := engineStep_frame hengine
    exact ⟨hin'.trans hin, htin'.trans htin⟩
  · exact ⟨rfl, rfl⟩
  · exact ⟨(command_frame hexec).capIn, (command_frame hexec).capTin⟩
  · exact ⟨rfl, rfl⟩
  · exact ⟨rfl, rfl⟩
  · exact ⟨putByte_capIn .., putByte_capTin ..⟩
  · exact ⟨rfl, rfl⟩

/-- What a step does to the contents of the buffers: the engine's turn, a host write outside BUSY, reset, or nothing. -/
theorem step_bufMem {s t : State} (hstep : step s = .next t) :
    (∃ u, EngineTurn s u ∧ engineStep u = .next t) ∨ (∀ b, bufMem t b = bufMem s b) ∨
    (∃ b i v rest, s.host = .bufWrite b i v :: rest ∧ s.state ≠ .busy ∧ hostWritable b = true ∧
      t = putByte { s with host := rest } b i v) ∨
    ∃ rest, s.host = .reset :: rest := by
  rcases step_cases hstep with hturn | ⟨op, rest, obs, -, rfl⟩ | ⟨v, rest, -, hexec⟩ | ⟨v, rest, -, -, rfl⟩ |
    ⟨v, rest, -, -, rfl⟩ | ⟨b, i, v, rest, hs, hfree, hwritable, -, rfl⟩ | ⟨rest, hs, -⟩
  · exact .inl hturn
  · exact .inr (.inl fun b => by cases b <;> rfl)
  · exact .inr (.inl fun b => ((command_frame hexec).mem b).trans (bufMem_host s rest b))
  · exact .inr (.inl fun b => by cases b <;> rfl)
  · exact .inr (.inl fun b => by cases b <;> rfl)
  · exact .inr (.inr (.inl ⟨b, i, v, rest, hs, hfree, hwritable, rfl⟩))
  · exact .inr (.inr (.inr ⟨rest, hs⟩))

/-- Settles O35: no engine and no command writes an input buffer. -/
theorem onlyHostWritesInputBuffers : Obligations.OnlyHostWritesInputBuffers := by
  intro s t b hstep hinput hne
  rcases step_bufMem hstep with ⟨u, turn, hengine⟩ | hsame | ⟨c, i, v, rest, hs, hfree, -, rfl⟩ | hreset
  · obtain ⟨-, -, -, -, -, -, hmem, -⟩ := turn.engine
    obtain ⟨-, -, hibuf, hdtbuf, -⟩ := engineStep_frame hengine
    rcases hinput with rfl | rfl
    · exact absurd (hibuf.trans (hmem .ibuf)) hne
    · exact absurd (hdtbuf.trans (hmem .dtbuf)) hne
  · exact absurd (hsame b) hne
  · obtain rfl : b = c := by
      by_contra hother
      exact hne ((putByte_bufMem_other _ c b i v hother).trans (bufMem_host s rest b))
    exact .inl ⟨i, v, rest, hs, hfree⟩
  · exact .inr hreset

/-- A host write reaches no output buffer (R60). -/
theorem putByte_writable_output {s : State} {b : Buf} (i : Nat) (v : Byte) (h : hostWritable b = true) :
    (putByte s b i v).etbuf = s.etbuf ∧ (putByte s b i v).obuf = s.obuf := by
  cases b with
  | ibuf | dtbuf => exact ⟨rfl, rfl⟩
  | etbuf | obuf => exact absurd h Bool.false_ne_true

/-- Settles O36: a host write reaches no output buffer, so the engine had its turn. -/
theorem onlyEnginesWriteOutputBuffers : Obligations.OnlyEnginesWriteOutputBuffers := by
  intro s t hstep hno
  rcases step_bufMem hstep with ⟨u, turn, hengine⟩ | hsame | ⟨b, i, v, rest, -, -, hwritable, rfl⟩ | ⟨rest, hs⟩
  · obtain ⟨hstate, hop, -, -, -, -, hmem, -⟩ := turn.engine
    obtain ⟨-, -, -, -, hetbuf, hobuf⟩ := engineStep_frame hengine
    rw [hstate, hop] at hetbuf hobuf
    exact ⟨fun hne => hetbuf fun h => hne (h.trans (hmem .etbuf)), fun hne => hobuf fun h => hne (h.trans (hmem .obuf))⟩
  · exact ⟨absurd (hsame .etbuf), absurd (hsame .obuf)⟩
  · obtain ⟨hetbuf, hobuf⟩ := putByte_writable_output (s := { s with host := rest }) i v hwritable
    exact ⟨absurd hetbuf, absurd hobuf⟩
  · exact absurd hs (hno rest)

/-- The encoder leaves STATE, or it ends DONE or ERROR (R132, R226). -/
theorem encStep_state {s t : State} (h : encStep s = .next t) :
    t.state = s.state ∨ t.state = .done ∨ t.state = .error := by
  cases hphase : s.enc.ephase with
  | search => cases (encStep_search hphase).symm.trans h; exact .inl rfl
  | scan => rcases encScan_eq_next ((encStep_scan hphase).symm.trans h) with rfl | rfl <;> exact .inl rfl
  | clamp => cases (encStep_clamp hphase).symm.trans h; exact .inl rfl
  | validate =>
    cases (encStep_validate hphase).symm.trans h
    rcases encValidate_cases s with ⟨e, -⟩ | ⟨e, -⟩ <;> rw [e]
    · exact .inr (.inr rfl)
    · exact .inl rfl
  | emit => obtain ⟨-, -, rfl⟩ := encEmit_eq_next ((encStep_emit hphase).symm.trans h); exact .inl rfl
  | advance =>
    cases (encStep_advance hphase).symm.trans h
    rcases encAdvance_cases s with ⟨e, -⟩ | ⟨e, -⟩ <;> rw [e]
    · exact .inl rfl
    · exact .inr (.inl rfl)

/-- An engine changes STATE only while BUSY, to DONE or ERROR (R40). -/
theorem engineStep_state {s t : State} (h : engineStep s = .next t) (hne : t.state ≠ s.state) :
    s.state = .busy ∧ (t.state = .done ∨ t.state = .error) := by
  rcases engineStep_cases h with rfl | ⟨hbusy, -, henc⟩ | ⟨hbusy, -, hdec⟩
  · exact absurd rfl hne
  · exact ⟨hbusy, (encStep_state henc).resolve_left hne⟩
  · exact ⟨hbusy, (decStep_moves hdec).2.resolve_left hne⟩

theorem EngineTurn.host {s u : State} (h : EngineTurn s u) :
    s.host = [] ∨ (∃ rest, s.host = .wait :: rest) ∨ ∃ rest, s.host = .poll :: rest := by
  rcases h with ⟨hs, -⟩ | ⟨rest, hs, -⟩ | ⟨rest, hs, -⟩
  · exact .inl hs
  · exact .inr (.inl ⟨rest, hs⟩)
  · exact .inr (.inr ⟨rest, hs⟩)

/-- Settles O37: an engine moves STATE only from BUSY, and a command only outside it. -/
theorem whatMovesTheBlockState : Obligations.WhatMovesTheBlockState := by
  intro s t hstep hne hno
  rcases step_cases hstep with ⟨u, turn, hengine⟩ | ⟨op, rest, obs, -, rfl⟩ | ⟨v, rest, hs, hexec⟩ |
    ⟨v, rest, -, -, rfl⟩ | ⟨v, rest, -, -, rfl⟩ | ⟨b, i, v, rest, -, -, -, -, rfl⟩ | ⟨rest, hs, -⟩
  · obtain ⟨hstate, -⟩ := turn.engine
    obtain ⟨hbusy, hend⟩ := engineStep_state hengine (hstate ▸ hne)
    exact ⟨fun hfree => absurd (hstate.symm.trans hbusy) hfree, fun _ => ⟨hend, turn.host⟩⟩
  · exact absurd rfl hne
  · refine ⟨fun _ => ⟨v, rest, hs⟩, fun hbusy => absurd ?_ hne⟩
    rw [(command_frame hexec).busy hbusy]
  · exact absurd rfl hne
  · exact absurd rfl hne
  · exact absurd (putByte_state ..) hne
  · exact absurd hs (hno rest)

end Sys2Proof.Machine
end
